-- ==== Sys2Proof/Word.lean ====
section
/-! DEFINITION. The bit-vector types of the block (spec/00_scope.md R7 to R9, spec/30_encoding.md R44, R45). -/

namespace Sys2Proof

/-- One byte of a binary message (R21). -/
abbrev Byte := BitVec 8

/-- One symbol code: a character as the block carries it (R16). -/
abbrev Symbol := BitVec 8

/-- One digit value, 0 to 31 (R12). -/
abbrev Digit := BitVec 5

/-- One chunk: 5 bytes as an unsigned 40-bit number (R12, R30). -/
abbrev Chunk := BitVec 40

/-- The argument field of a command word, bits [63:0] (R45). -/
abbrev Arg := BitVec 64

/-- The data field of a response word, bits [63:0] (R44). -/
abbrev Data := BitVec 64

/-- The opcode field, 4 bits (R44, R45). -/
abbrev Opcode := BitVec 4

/-- One command word, 68 bits (R45). -/
abbrev CommandWord := BitVec 68

/-- One response word, 76 bits (R44). -/
abbrev ResponseWord := BitVec 76

end Sys2Proof
end

