-- ==== Sys2Proof/Syntax.lean ====
section
/-! DEFINITION. The instructions of the block: one constructor per row of spec/opcode_table.json (spec/30_encoding.md
R47). -/

namespace Sys2Proof

/-- A command. Every command carries the whole argument field: the bits an operation does not read are legal with any
value (R48), and it is its meaning that ignores them. -/
inductive Instr where
  /-- R83: no operation. -/
  | nop (arg : Arg)
  /-- R50: digit value to canonical symbol; the operand is the whole argument. -/
  | encd (arg : Arg)
  /-- R51: symbol to digit value; the operand is `arg[7:0]`. -/
  | decd (arg : Arg)
  /-- R52: read one entry of the digit table; the operand is the whole argument. -/
  | dset (arg : Arg)
  /-- R66: encode one chunk, `arg[39:0]`. -/
  | encc (arg : Arg)
  /-- R67: decode one group of 8 symbols, the whole argument. -/
  | decc (arg : Arg)
  /-- R75: append the byte `arg[7:0]` to the encode buffer. -/
  | putb (arg : Arg)
  /-- R76: encode the buffered binary message. -/
  | endb (arg : Arg)
  /-- R77: append the value of the symbol `arg[7:0]` to the decode buffer. -/
  | puts (arg : Arg)
  /-- R78: decode the buffered text message. -/
  | ends (arg : Arg)
  /-- R84: read the status word. -/
  | stat (arg : Arg)
  /-- R85: discard both messages and clear all flags. -/
  | abort (arg : Arg)
  /-- R86: reserved opcode 0xC. -/
  | reservedC (arg : Arg)
  /-- R86: reserved opcode 0xD. -/
  | reservedD (arg : Arg)
  /-- R86: reserved opcode 0xE. -/
  | reservedE (arg : Arg)
  /-- R86: reserved opcode 0xF. -/
  | reservedF (arg : Arg)
  deriving DecidableEq, Repr

end Sys2Proof
end

