-- ==== Sys2Proof/Decode.lean ====
section
/-! DEFINITION. Decoding and encoding of command words (spec/30_encoding.md R45, R47). Every 68-bit word is a command, so
the decoder of words is total; what it refuses, by name, is a number that does not fit the 68 bits of the command
port (notes/assumptions/19.md). -/

namespace Sys2Proof

/-- Why a number is no command word. -/
inductive DecodeError where
  /-- A bit above bit 67 is set: the command port has 68 lines (R42, R45). -/
  | tooWide
  deriving DecidableEq, Repr

/-- `op`, bits [67:64] of a command word (R45). -/
def opField (w : CommandWord) : Opcode := w.extractLsb' 64 4

/-- `arg`, bits [63:0] of a command word (R45). -/
def argField (w : CommandWord) : Arg := w.extractLsb' 0 64

/-- The command with opcode `op` and argument `a` (R47): `op` alone selects the operation. The four bits of `op` stand in
the order in which the table's encodings print them, bit 3 first. -/
def instrOf (op : Opcode) (a : Arg) : Instr :=
  match op.getLsbD 3, op.getLsbD 2, op.getLsbD 1, op.getLsbD 0 with
  | false, false, false, false => .nop a
  | false, false, false, true => .encd a
  | false, false, true, false => .decd a
  | false, false, true, true => .dset a
  | false, true, false, false => .encc a
  | false, true, false, true => .decc a
  | false, true, true, false => .putb a
  | false, true, true, true => .endb a
  | true, false, false, false => .puts a
  | true, false, false, true => .ends a
  | true, false, true, false => .stat a
  | true, false, true, true => .abort a
  | true, true, false, false => .reservedC a
  | true, true, false, true => .reservedD a
  | true, true, true, false => .reservedE a
  | true, true, true, true => .reservedF a

/-- The command of a command word (R45, R47). -/
def decode (w : CommandWord) : Instr := instrOf (opField w) (argField w)

/-- The command of a number whose low `nbits` bits are the command word and whose other bits count as 0; refused when a
bit above bit 67 remains. -/
def decodeBits (nbits w : Nat) : Except DecodeError Instr :=
  let bits := w % 2 ^ nbits
  if bits < 2 ^ 68 then .ok (decode (BitVec.ofNat 68 bits)) else .error .tooWide

/-- The opcode of a command (R47). -/
def Instr.opcode : Instr → Opcode
  | .nop _ => 0x0
  | .encd _ => 0x1
  | .decd _ => 0x2
  | .dset _ => 0x3
  | .encc _ => 0x4
  | .decc _ => 0x5
  | .putb _ => 0x6
  | .endb _ => 0x7
  | .puts _ => 0x8
  | .ends _ => 0x9
  | .stat _ => 0xA
  | .abort _ => 0xB
  | .reservedC _ => 0xC
  | .reservedD _ => 0xD
  | .reservedE _ => 0xE
  | .reservedF _ => 0xF

/-- The argument field of a command (R45). -/
def Instr.arg : Instr → Arg
  | .nop a => a
  | .encd a => a
  | .decd a => a
  | .dset a => a
  | .encc a => a
  | .decc a => a
  | .putb a => a
  | .endb a => a
  | .puts a => a
  | .ends a => a
  | .stat a => a
  | .abort a => a
  | .reservedC a => a
  | .reservedD a => a
  | .reservedE a => a
  | .reservedF a => a

/-- The command word of a command: `op` in bits [67:64], `arg` in bits [63:0] (R45). -/
def encode (i : Instr) : CommandWord := i.opcode ++ i.arg

/-- The host's question: what the decoder reads from an instruction whose bits are `w`, numbered as
spec/opcode_table.json numbers them (bit 0 of the one command word is the least significant bit). -/
def decodeTableWord (nbits w : Nat) : Option Instr :=
  match decodeBits nbits w with
  | .ok i => some i
  | .error _ => none

end Sys2Proof
end

