-- ==== Sys2Proof/Machine/Lanes.lean ====
section
/-! DEFINITION. Lanes of a bit vector (spec/00_scope.md R9, spec/20_memory.md R30 to R32): a sequence of `w`-bit elements
carried in a wider vector with the first element in the most significant lane. Every byte order, digit order and symbol
order of the block is decided here. -/

namespace Sys2Proof.Machine

/-- The elements of `l` side by side, the last one in bits `[w-1:0]`, the first one in the most significant lane used:
`{0, l[0], l[1], ...}` as R9 writes it, `m` bits wide (R32, R64, R65). -/
def joinLanes {w : Nat} (m : Nat) (l : List (BitVec w)) : BitVec m :=
  l.foldl (fun acc x => (acc <<< w) ||| x.setWidth m) 0

/-- The `k` elements of `w` bits in the `w * k` low bits of `v`, the most significant one first: element `j` is
`v[w*(k-j)-1 : w*(k-1-j)]` (R30, R32, R64). -/
def splitLanes (w k : Nat) {m : Nat} (v : BitVec m) : List (BitVec w) :=
  (List.range k).map fun j => v.extractLsb' (w * (k - 1 - j)) w

/-- `k` consecutive groups of `w` elements each, in order (R33): group `i` is `l[w*i .. w*i + w)`. -/
def groupsOf {α : Type} (w : Nat) : Nat → List α → List (List α)
  | 0, _ => []
  | k + 1, l => l.take w :: groupsOf w k (l.drop w)

/-- Number of zero bytes put in front of a message of `n` bytes (R34). -/
def padB (n : Nat) : Nat := (5 - n % 5) % 5

/-- Number of zero digits put in front of a message of `m` valid digits (R35). -/
def padD (m : Nat) : Nat := (8 - m % 8) % 8

end Sys2Proof.Machine
end

