-- ==== Sys2Proof/Machine/Operands.lean ====
section
/-! DEFINITION. What each operation reads from `arg` (spec/30_encoding.md R48, spec/20_memory.md R32). Every operand is an
unsigned bit field used as it stands; the bits not read are ignored. -/

namespace Sys2Proof.Machine

/-- ENCD and DSET: the whole argument is a digit value exactly when `arg[63:5] = 0` (R50, R52). -/
def argInRange (arg : Arg) : Bool := arg.extractLsb' 5 59 = 0

/-- ENCD and DSET: the digit value `arg[4:0]` of an argument in range (R50, R52). -/
def argDigit (arg : Arg) : Digit := arg.extractLsb' 0 5

/-- DECD and PUTS: the symbol code `arg[7:0]` (R51, R77). -/
def argSymbol (arg : Arg) : Symbol := arg.extractLsb' 0 8

/-- PUTB: the byte `arg[7:0]` (R75). -/
def argByte (arg : Arg) : Byte := arg.extractLsb' 0 8

/-- ENCC: the chunk `arg[39:0]` (R66). -/
def argChunk (arg : Arg) : Chunk := arg.extractLsb' 0 40

/-- DECC: the 8 symbol codes, the first in `arg[63:56]` (R67). -/
def argGroup (arg : Arg) : List Symbol := splitLanes 8 8 arg

end Sys2Proof.Machine
end

