-- ==== Sys2Proof/Machine/DigitTable.lean ====
section
/-! DEFINITION. The digit table ROM `DT` and its two lookups `CANON` and `VAL` (spec/10_state.md R16 to R19). -/

namespace Sys2Proof.Machine

/-- `DT`: entry `i` is the list of the symbol codes of digit value `i`, the canonical one first (R17). The codes are the
column "Codes" of R17, which R16 fixes as US-ASCII (notes/assumptions/12.md). The order of the aliases is the listing's
(notes/assumptions/10.md). -/
def digitTable : List (List Symbol) :=
  [[0x30, 0x4F, 0x6F], [0x31, 0x49, 0x69], [0x32], [0x33], [0x34], [0x35, 0x53, 0x73], [0x36], [0x37]] ++
  [[0x38], [0x39], [0x41, 0x61], [0x42, 0x62], [0x43, 0x63], [0x44, 0x64], [0x45, 0x65], [0x46, 0x66]] ++
  [[0x47, 0x67], [0x48, 0x68], [0x4A, 0x6A], [0x4B, 0x6B], [0x4C, 0x6C], [0x4D, 0x6D], [0x4E, 0x6E], [0x50, 0x70]] ++
  [[0x51, 0x71], [0x52, 0x72], [0x54, 0x74], [0x56, 0x76, 0x55, 0x75], [0x57, 0x77], [0x58, 0x78], [0x59, 0x79],
   [0x5A, 0x7A]]

/-- `DT[i]`: the symbols of entry `i` (R17). The table has an entry for each of the 32 values, so the default is never
taken. -/
def entryOf (i : Digit) : List Symbol := digitTable.getD i.toNat []

/-- `CANON[i]`: the first symbol of `DT[i]` (R18). No entry is empty, so the default is never taken. -/
def canonOf (i : Digit) : Symbol := (entryOf i).headD 0

/-- `VAL(c)`: the index of the entry that contains `c`, absent if none does (R19): the source's scan of the table. -/
def valOf (c : Symbol) : Option Digit :=
  (digitTable.findIdx? fun entry => entry.contains c).map (BitVec.ofNat 5)

/-- R12: a valid symbol is a symbol of some entry, `VAL(c) != None`. -/
def isValid (c : Symbol) : Bool := (valOf c).isSome

/-- The symbol code of a character: its US-ASCII code, absent for a character outside the 7-bit code, which "cannot be
presented" (R16, spec/93_implementation_defined.md U11; notes/assumptions/12.md). -/
def symbolOf (c : Char) : Option Symbol :=
  if c.toNat < 128 then some (BitVec.ofNat 8 c.toNat) else none

end Sys2Proof.Machine
end

