-- ==== Sys2Proof/Config.lean ====
section
/-! DEFINITION. The open parameters of the block that are architectural: CAPB and CAPD (spec/00_scope.md R8,
spec/93_implementation_defined.md section 2). RQD and LAT are not architectural and have no counterpart
(notes/assumptions/4.md). -/

namespace Sys2Proof

/-- The capacities of one block with the bounds R8 gives them: `5 <= CAPB <= 2^24 - 1`, `8 <= CAPD <= 2^24 - 1`.
A claim over all values of this type holds on every block that R8 allows. -/
structure Params where
  /-- CAPB: capacity of the encode buffer, in bytes. -/
  capB : Nat
  /-- CAPD: capacity of the decode buffer, in digits. -/
  capD : Nat
  capB_least : 5 ≤ capB
  capB_most : capB ≤ 2 ^ 24 - 1
  capD_least : 8 ≤ capD
  capD_most : capD ≤ 2 ^ 24 - 1
  deriving DecidableEq, Repr

/-- Free value: by how many bytes the CAPB of the block after reset exceeds the least legal value. R8 leaves it OPEN
(notes/assumptions/3.md). -/
opaque Config.spareB : Fin 16777211

/-- Free value: by how many digits the CAPD of the block after reset exceeds the least legal value. R8 leaves it OPEN
(notes/assumptions/3.md). -/
opaque Config.spareD : Fin 16777208

/-- The capacities of the block that `State.reset` describes: any that R8 allows, none in particular. -/
def Config.fitted : Params where
  capB := Config.spareB.val + 5
  capD := Config.spareD.val + 8
  capB_least := by omega
  capB_most := by omega
  capD_least := by omega
  capD_most := by omega

end Sys2Proof
end

