-- ==== Sys2Proof/Machine/State.lean ====
section
/-! DEFINITION. The state of the machine (spec/10_state.md R15, R26), the host's moves (spec/20_memory.md R38) and the
reasons a step could stop (none, spec/60_exceptions.md R96). -/

namespace Sys2Proof.Machine

/-- `FLAGS`: three sticky bits (R24). -/
structure Flags where
  /-- `OVFB`: a byte did not fit the encode buffer. -/
  ovfb : Bool
  /-- `OVFD`: a valid digit did not fit the decode buffer. -/
  ovfd : Bool
  /-- `ILL`: a command with a reserved opcode was executed. -/
  ill : Bool
  deriving DecidableEq, Repr

/-- A move of the host (R6, R38, R104). A host that changes or withdraws a presented word has no move
(spec/93_implementation_defined.md U4; notes/assumptions/1.md). -/
inductive HostMove where
  /-- A command word that the block accepts (R43). -/
  | command (w : CommandWord)
  /-- The host is ready for a response: the head of the response queue is delivered (R43). -/
  | take
  /-- A clock edge with `rst = 1` (R104). -/
  | reset
  deriving DecidableEq, Repr

/-- The state. The first four fields are the mutable state of R15 (the ROM `DT` is the constant `digitTable`, which has
no write path: notes/assumptions/5.md); `params` is the configuration of the block (R8, R15); the last three are the
model's own. -/
structure State where
  /-- `EB`: the bytes of the open binary message, in arrival order (R21). -/
  eb : List Byte
  /-- `DB`: the values of the valid symbols of the open text message, in arrival order (R22). -/
  db : List Digit
  /-- `FLAGS` (R24). -/
  flags : Flags
  /-- `RQ`: the response words not yet delivered, the head first (R23). -/
  rq : List ResponseWord
  /-- CAPB and CAPD of this block, which no step changes (R8; notes/assumptions/3.md). -/
  params : Params
  /-- The model's own: the coming moves of the host, the next one first (R15: "an input of the model, not state";
  notes/assumptions/1.md). -/
  input : List HostMove
  /-- The model's own: the response words delivered since the last reset, the first one first (R39(c);
  notes/assumptions/7.md). -/
  delivered : List ResponseWord
  /-- The model's own: some flag was set since the last reset (R95; notes/assumptions/6.md). -/
  faulted : Bool
  deriving DecidableEq, Repr

/-- The block raises no exception and takes no trap: "No operation can stop the block" (R96). There is no reason a step
could stop with, so the type has no constructor and nothing raises it. -/
inductive Fault where
  deriving DecidableEq, Repr

/-- Why the model gives a command no meaning. -/
inductive Refusal where
  /-- Raised by an arm of `exec` whose command has no meaning yet; safe, since the model stops where the block goes on.
  Every command has its meaning, so no arm raises it. -/
  | notModelled (mnemonic : String)
  deriving DecidableEq, Repr

/-- The reset state of a block with the given capacities (R26). -/
def State.resetWith (p : Params) : State where
  eb := []
  db := []
  flags := { ovfb := false, ovfd := false, ill := false }
  rq := []
  params := p
  input := []
  delivered := []
  faulted := false

/-- The machine right after reset (R26), with capacities that R8 leaves open. -/
def State.reset : State := State.resetWith Config.fitted

end Sys2Proof.Machine
end

