-- ==== Sys2Proof/Machine/Ops.lean ====
section
/-! DEFINITION. The shared operations: the three kinds of response word, the response queue, reset, and the chunk engine.
There is no operation of taking an exception and none of returning from one, because the block has neither
(spec/60_exceptions.md R96, R97). There is no operation over addressed memory, because there is no address space
(spec/20_memory.md R29). -/

namespace Sys2Proof.Machine

/-- `RESULT(op, ok, cnt, data)`: the one response of a single-response command (R44). -/
def resultWord (op : Opcode) (ok : Bool) (cnt : BitVec 4) (data : Data) : ResponseWord :=
  op ++ 0b00#2 ++ BitVec.ofBool ok ++ 0b0#1 ++ cnt ++ data

/-- `DATA(op, data)`: one beat of a message (R44). -/
def dataWord (op : Opcode) (data : Data) : ResponseWord :=
  op ++ 0b01#2 ++ 0b1#1 ++ 0b0#1 ++ 0b0000#4 ++ data

/-- `DONE(op, ok, cnt, data)`: the closing response of ENDB or ENDS (R44). -/
def doneWord (op : Opcode) (ok : Bool) (cnt : BitVec 4) (data : Data) : ResponseWord :=
  op ++ 0b10#2 ++ BitVec.ofBool ok ++ 0b0#1 ++ cnt ++ data

/-- `emit(w)` for each word of `ws` in order: append them to the tail of the response queue (R11, R23). -/
def emitAll (ws : List ResponseWord) (s : State) : State := { s with rq := s.rq ++ ws }

/-- `emit(w)` (R11). -/
def emit (w : ResponseWord) (s : State) : State := emitAll [w] s

/-- The source's "absent" as a response: `ok = 0`, `cnt = 0`, `data = 0` (R46). -/
def absentWord (op : Opcode) : ResponseWord := resultWord op false 0 0

/-- `pop`: deliver and remove the head of a non-empty response queue (R23, R38, R43). With an empty queue `rsp_valid` is 0
and nothing is delivered (notes/assumptions/8.md). -/
def takeResponse (s : State) : State :=
  match s.rq with
  | [] => s
  | w :: rest => { s with rq := rest, delivered := s.delivered ++ [w] }

/-- Reset (R104): every element of the state takes its reset value (R26), responses not yet delivered are lost (R105). The
capacities are the block's own, and the coming moves of the host are not the block's (notes/assumptions/15.md). -/
def resetBlock (s : State) : State := { State.resetWith s.params with input := s.input }

/-- `EncChunk(n)` in the fixed-width form, 8 symbols: symbol `j` is `CANON[n[39-5j : 35-5j]]` (R64). -/
def encChunk (n : Chunk) : List Symbol := (splitLanes 5 8 n).map canonOf

/-- `DecGroupCnt(g)` in the fixed-width form: the values of the valid symbols side by side, right-aligned in 40 bits, and
their number (R65). -/
def decGroupCnt (g : List Symbol) : Chunk × Nat :=
  let d := g.filterMap valOf
  (joinLanes 40 d, d.length)

/-- The data of the DATA beats of ENDB for the message `b` (R76): left padding to a multiple of 5 bytes, then one group of
8 symbols per chunk, in order. -/
def encodeBeats (b : List Byte) : List Data :=
  let p := padB b.length
  let padded := List.replicate p 0 ++ b
  let k := (b.length + p) / 5
  (groupsOf 5 k padded).map fun chunk => joinLanes 64 (encChunk (joinLanes 40 chunk))

/-- The data of the DATA beats of ENDS for the digit values `d` (R78): left padding to a multiple of 8 digits, then one
40-bit chunk per group, in order. -/
def decodeBeats (d : List Digit) : List Data :=
  let p := padD d.length
  let padded := List.replicate p 0 ++ d
  let k := (d.length + p) / 8
  (groupsOf 8 k padded).map fun group => (joinLanes 40 group).setWidth 64

/-- The responses of an END command that codes its message: the DATA beats in order, then DONE with the number of pad
elements in `cnt` and the number of beats in `data` (R76, R78). -/
def codedMessage (op : Opcode) (pad : Nat) (beats : List Data) : List ResponseWord :=
  beats.map (dataWord op) ++ [doneWord op true (BitVec.ofNat 4 pad) (BitVec.ofNat 64 beats.length)]

/-- The response of an END command that refuses its message: no DATA beat, DONE with `ok = 0` (R76, R78, R79). -/
def refusedMessage (op : Opcode) : List ResponseWord := [doneWord op false 0 0]

end Sys2Proof.Machine
end

