-- ==== Sys2Proof/Machine/ChunkEngine.lean ====
section
/-! DEFINITION. The chunk operations ENCC, DECC (spec/42_chunk_ops.md). -/

namespace Sys2Proof.Machine

/-- ENCC (R66). -/
def execEncc (arg : Arg) (s : State) : Host.Outcome State Fault Refusal :=
  .next (emit (resultWord 0x4 true 0 (joinLanes 64 (encChunk (argChunk arg)))) s)

/-- DECC (R67): `ok` is 1 exactly when all 8 symbols are valid; `cnt` and `data` are meaningful in both cases (C6). -/
def execDecc (arg : Arg) (s : State) : Host.Outcome State Fault Refusal :=
  let r := decGroupCnt (argGroup arg)
  .next (emit (resultWord 0x5 (r.2 == 8) (BitVec.ofNat 4 r.2) (r.1.setWidth 64)) s)

end Sys2Proof.Machine
end

