-- ==== Sys2Proof/Machine/Flags.lean ====
section
/-! DEFINITION. Setting, clearing and reading the three sticky flags, and the `STATUS` view (spec/10_state.md R24, R25).
There are no condition codes. -/

namespace Sys2Proof.Machine

/-- Set `OVFB` (R75). The run is marked as faulted (R95). -/
def setOvfb (s : State) : State := { s with flags := { s.flags with ovfb := true }, faulted := true }

/-- Set `OVFD` (R77). The run is marked as faulted (R95). -/
def setOvfd (s : State) : State := { s with flags := { s.flags with ovfd := true }, faulted := true }

/-- Set `ILL` (R86). The run is marked as faulted (R95). -/
def setIll (s : State) : State := { s with flags := { s.flags with ill := true }, faulted := true }

/-- `EB <- []; FLAGS.OVFB <- 0`: what closing or discarding a binary message does (R76, R85). -/
def emptyEncodeBuffer (s : State) : State := { s with eb := [], flags := { s.flags with ovfb := false } }

/-- `DB <- []; FLAGS.OVFD <- 0`: what closing or discarding a text message does (R78, R85). -/
def emptyDecodeBuffer (s : State) : State := { s with db := [], flags := { s.flags with ovfd := false } }

/-- `FLAGS.ILL <- 0` (R85). -/
def clearIll (s : State) : State := { s with flags := { s.flags with ill := false } }

/-- `STATUS` (R25, R84): 13 zero bits, ILL, OVFD, OVFB, the length of DB in 24 bits, the length of EB in 24 bits. The
lengths fit, since they are at most CAPD and CAPB (notes/assumptions/18.md). -/
def statusWord (s : State) : Data :=
  0#13 ++ BitVec.ofBool s.flags.ill ++ BitVec.ofBool s.flags.ovfd ++ BitVec.ofBool s.flags.ovfb ++
    BitVec.ofNat 24 s.db.length ++ BitVec.ofNat 24 s.eb.length

end Sys2Proof.Machine
end

