-- ==== Sys2Proof/Machine/Control.lean ====
section
/-! DEFINITION. The control operations NOP, STAT, ABORT and the reserved opcodes (spec/44_control_ops.md). -/

namespace Sys2Proof.Machine

/-- NOP (R83). -/
def execNop (_arg : Arg) (s : State) : Host.Outcome State Fault Refusal := .next s

/-- STAT (R84). -/
def execStat (_arg : Arg) (s : State) : Host.Outcome State Fault Refusal :=
  .next (emit (resultWord 0xA true 0 (statusWord s)) s)

/-- ABORT (R85): the responses already in the queue are kept. -/
def execAbort (_arg : Arg) (s : State) : Host.Outcome State Fault Refusal :=
  .next (emit (resultWord 0xB true 0 0) (clearIll (emptyDecodeBuffer (emptyEncodeBuffer s))))

/-- A reserved opcode (R86): set ILL and answer RESULT with `op` echoed and `ok = 0` (notes/assumptions/11.md). -/
def reservedCommand (op : Opcode) (s : State) : State := emit (resultWord op false 0 0) (setIll s)

/-- Reserved opcode 0xC (R86). -/
def execReservedC (_arg : Arg) (s : State) : Host.Outcome State Fault Refusal := .next (reservedCommand 0xC s)

/-- Reserved opcode 0xD (R86). -/
def execReservedD (_arg : Arg) (s : State) : Host.Outcome State Fault Refusal := .next (reservedCommand 0xD s)

/-- Reserved opcode 0xE (R86). -/
def execReservedE (_arg : Arg) (s : State) : Host.Outcome State Fault Refusal := .next (reservedCommand 0xE s)

/-- Reserved opcode 0xF (R86). -/
def execReservedF (_arg : Arg) (s : State) : Host.Outcome State Fault Refusal := .next (reservedCommand 0xF s)

end Sys2Proof.Machine
end

