-- ==== Sys2Proof/Machine/Digit.lean ====
section
/-! DEFINITION. The digit operations ENCD, DECD, DSET (spec/40_digit_ops.md). -/

namespace Sys2Proof.Machine

/-- ENCD (R50). -/
def execEncd (arg : Arg) (s : State) : Host.Outcome State Fault Refusal :=
  .next (emit (if argInRange arg then resultWord 0x1 true 0 ((canonOf (argDigit arg)).setWidth 64) else absentWord 0x1) s)

/-- DECD (R51). -/
def execDecd (arg : Arg) (s : State) : Host.Outcome State Fault Refusal :=
  match valOf (argSymbol arg) with
  | some v => .next (emit (resultWord 0x2 true 0 (v.setWidth 64)) s)
  | none => .next (emit (absentWord 0x2) s)

/-- DSET (R52): the entry's symbols fill the lanes from the least significant one, the canonical symbol in `data[7:0]`, and
`cnt` is their number. -/
def execDset (arg : Arg) (s : State) : Host.Outcome State Fault Refusal :=
  let entry := entryOf (argDigit arg)
  .next (emit (if argInRange arg then resultWord 0x3 true (BitVec.ofNat 4 entry.length) (joinLanes 64 entry.reverse)
    else absentWord 0x3) s)

end Sys2Proof.Machine
end

