-- ==== Sys2Proof/Machine/Message.lean ====
section
/-! DEFINITION. The message operations PUTB, ENDB, PUTS, ENDS (spec/43_message_ops.md). -/

namespace Sys2Proof.Machine

/-- PUTB (R75): a full buffer drops the byte and sets OVFB. -/
def execPutb (arg : Arg) (s : State) : Host.Outcome State Fault Refusal :=
  if s.eb.length < s.params.capB then .next { s with eb := s.eb ++ [argByte arg] } else .next (setOvfb s)

/-- ENDB (R76): OVFB is tested first (R99); the buffer is emptied whatever the outcome. -/
def execEndb (_arg : Arg) (s : State) : Host.Outcome State Fault Refusal :=
  .next (emptyEncodeBuffer (emitAll
    (if s.flags.ovfb then refusedMessage 0x7 else codedMessage 0x7 (padB s.eb.length) (encodeBeats s.eb)) s))

/-- PUTS (R77): an invalid symbol changes nothing, also when the buffer is full (R99); a full buffer drops a valid digit
and sets OVFD. -/
def execPuts (arg : Arg) (s : State) : Host.Outcome State Fault Refusal :=
  match valOf (argSymbol arg) with
  | none => .next s
  | some v => if s.db.length < s.params.capD then .next { s with db := s.db ++ [v] } else .next (setOvfd s)

/-- ENDS (R78): OVFD is tested first (R99); the buffer is emptied whatever the outcome. -/
def execEnds (_arg : Arg) (s : State) : Host.Outcome State Fault Refusal :=
  .next (emptyDecodeBuffer (emitAll
    (if s.flags.ovfd then refusedMessage 0x9 else codedMessage 0x9 (padD s.db.length) (decodeBeats s.db)) s))

end Sys2Proof.Machine
end

