-- ==== Sys2Proof/Machine/Dispatch.lean ====
section
/-! DEFINITION. The dispatch: one arm per command (spec/30_encoding.md R47). -/

namespace Sys2Proof.Machine

/-- One command executed as one atomic transition (R38). -/
def exec (i : Instr) (s : State) : Host.Outcome State Fault Refusal :=
  match i with
  | .nop arg => Sys2Proof.Machine.execNop arg s
  | .encd arg => Sys2Proof.Machine.execEncd arg s
  | .decd arg => Sys2Proof.Machine.execDecd arg s
  | .dset arg => Sys2Proof.Machine.execDset arg s
  | .encc arg => Sys2Proof.Machine.execEncc arg s
  | .decc arg => Sys2Proof.Machine.execDecc arg s
  | .putb arg => Sys2Proof.Machine.execPutb arg s
  | .endb arg => Sys2Proof.Machine.execEndb arg s
  | .puts arg => Sys2Proof.Machine.execPuts arg s
  | .ends arg => Sys2Proof.Machine.execEnds arg s
  | .stat arg => Sys2Proof.Machine.execStat arg s
  | .abort arg => Sys2Proof.Machine.execAbort arg s
  | .reservedC arg => Sys2Proof.Machine.execReservedC arg s
  | .reservedD arg => Sys2Proof.Machine.execReservedD arg s
  | .reservedE arg => Sys2Proof.Machine.execReservedE arg s
  | .reservedF arg => Sys2Proof.Machine.execReservedF arg s

end Sys2Proof.Machine
end

