-- ==== Sys2Proof/Machine/Moves.lean ====
section
/-! DEFINITION. One move of the host carried out by the block, and sequences of moves and of commands
(spec/20_memory.md R38, spec/70_reset_and_hazards.md R112). -/

namespace Sys2Proof.Machine

/-- One move: the block executes the accepted command, delivers the head of the response queue, or is reset (R38, R43,
R104). -/
def move (m : HostMove) (s : State) : Host.Outcome State Fault Refusal :=
  match m with
  | .command w => exec (decode w) s
  | .take => .next (takeResponse s)
  | .reset => .next (resetBlock s)

/-- Go on with `f` after a next state; a fault or a refusal stays. -/
def andThen {σ τ : Type} (o : Host.Outcome σ Fault Refusal) (f : σ → Host.Outcome τ Fault Refusal) :
    Host.Outcome τ Fault Refusal :=
  match o with
  | .next t => f t
  | .fault r => .fault r
  | .refused r => .refused r

/-- A sequence of moves, in order. -/
def runMoves : List HostMove → State → Host.Outcome State Fault Refusal
  | [], s => .next s
  | m :: ms, s => andThen (move m s) (runMoves ms)

/-- A sequence of commands, in the order of acceptance (R38). -/
def execAll : List Instr → State → Host.Outcome State Fault Refusal
  | [], s => .next s
  | i :: is, s => andThen (exec i s) (execAll is)

/-- The responses caused since the last reset, delivered or not, in order (R39). -/
def State.responses (s : State) : List ResponseWord := s.delivered ++ s.rq

/-- The command words among a sequence of moves, in order: the sequence that R39(c) calls the command words accepted. -/
def commandsOf : List HostMove → List CommandWord
  | [] => []
  | .command w :: ms => w :: commandsOf ms
  | .take :: ms => commandsOf ms
  | .reset :: ms => commandsOf ms

end Sys2Proof.Machine
end

