-- ==== Sys2Proof/Machine/Step.lean ====
section
/-! DEFINITION. The step: the next move of the host (spec/20_memory.md R38, spec/70_reset_and_hazards.md R112;
notes/assumptions/1.md, notes/assumptions/2.md). -/

namespace Sys2Proof.Machine

/-- One step: the block carries out the host's next move. With no move left the block waits for a command (R103). -/
def step (s : State) : Host.Outcome State Fault Refusal :=
  match s.input with
  | [] => .next s
  | m :: rest => move m { s with input := rest }

/-- The state in which the host presents the command whose bits are `w` as its very next move. -/
def State.withFetchWord (s : State) (nbits w : Nat) : State :=
  { s with input := .command (BitVec.ofNat 68 (w % 2 ^ nbits)) :: s.input }

end Sys2Proof.Machine
end

