-- ==== Sys2Proof/Machine/Assembler.lean ====
section
/-! DEFINITION. The assembler syntax of spec/30_encoding.md R49: command lines, the pseudo-commands ENCBIN and DECBIN, and
the hexadecimal forms of command and response words (R44, R45). A text is a list of characters. What R49 does not give a
meaning is refused with `none` (notes/assumptions/17.md). -/

namespace Sys2Proof.Machine

/-- The operand forms of R49. -/
inductive Operand where
  /-- A decimal or hexadecimal number. -/
  | num (n : Int)
  /-- A character in single quotes: its symbol code. -/
  | chr (c : Symbol)
  /-- A string in double quotes: the symbol codes of its characters. -/
  | str (s : List Symbol)
  deriving DecidableEq, Repr

/-- One line of a listing (R49). -/
inductive AsmLine where
  /-- A mnemonic, by its opcode, with at most one operand. -/
  | command (op : Opcode) (x : Option Operand)
  /-- `.cmd` with the whole command word. -/
  | raw (w : CommandWord)
  /-- `ENCBIN b0, ..., bn-1`. -/
  | encbin (b : List Byte)
  /-- `DECBIN "text"`. -/
  | decbin (s : List Symbol)
  deriving DecidableEq, Repr

/-- The operations that have an operand: all but NOP, ENDB, ENDS, STAT, ABORT (R49). -/
def takesOperand (op : Opcode) : Bool :=
  op = 0x1 || op = 0x2 || op = 0x3 || op = 0x4 || op = 0x5 || op = 0x6 || op = 0x8

/-- The argument field of an operand (R49): a negative number in 64-bit two's complement, everything else right-aligned;
a string for DECC only, of exactly 8 characters, the leftmost in `arg[63:56]`. -/
def operandArg (op : Opcode) : Operand → Option Arg
  | .num n => if -(2 ^ 63) ≤ n ∧ n < 2 ^ 64 then some (BitVec.ofInt 64 n) else none
  | .chr c => some (c.setWidth 64)
  | .str s => if op = 0x5 ∧ s.length = 8 then some (joinLanes 64 s) else none

/-- `ENCBIN b0, ..., bn-1` expands to PUTB of each byte, then ENDB (R49). -/
def encbinCommands (b : List Byte) : List Instr := b.map (fun x => .putb (x.setWidth 64)) ++ [.endb 0]

/-- `DECBIN "text"` expands to PUTS of each symbol from left to right, then ENDS (R49). -/
def decbinCommands (s : List Symbol) : List Instr := s.map (fun c => .puts (c.setWidth 64)) ++ [.ends 0]

/-- The command words of a line (R49). -/
def assembleLine : AsmLine → Option (List CommandWord)
  | .command op none => if takesOperand op ∨ 0xC ≤ op then none else some [encode (instrOf op 0)]
  | .command op (some x) => if takesOperand op then (operandArg op x).map fun a => [encode (instrOf op a)] else none
  | .raw w => some [w]
  | .encbin b => some ((encbinCommands b).map encode)
  | .decbin s => some ((decbinCommands s).map encode)

/-- The opcode of a mnemonic, in upper case (R47, R49). -/
def mnemonicOp (m : List Char) : Option Opcode :=
  let table : List (List Char × Opcode) :=
    [(['N', 'O', 'P'], 0x0), (['E', 'N', 'C', 'D'], 0x1), (['D', 'E', 'C', 'D'], 0x2), (['D', 'S', 'E', 'T'], 0x3)] ++
    [(['E', 'N', 'C', 'C'], 0x4), (['D', 'E', 'C', 'C'], 0x5), (['P', 'U', 'T', 'B'], 0x6), (['E', 'N', 'D', 'B'], 0x7)] ++
    [(['P', 'U', 'T', 'S'], 0x8), (['E', 'N', 'D', 'S'], 0x9), (['S', 'T', 'A', 'T'], 0xA)] ++
    [(['A', 'B', 'O', 'R', 'T'], 0xB)]
  (table.find? fun row => row.1 == m).map Prod.snd

/-- The value of a hexadecimal digit. -/
def hexValue (c : Char) : Option Nat :=
  if '0' ≤ c ∧ c ≤ '9' then some (c.toNat - 48)
  else if 'A' ≤ c ∧ c ≤ 'F' then some (c.toNat - 55)
  else if 'a' ≤ c ∧ c ≤ 'f' then some (c.toNat - 87)
  else none

/-- The number that the leading digits of base `base` spell, and the rest of the text; absent without a digit. -/
def readNumber (base : Nat) (cs : List Char) : Option (Nat × List Char) :=
  let isDigit := fun c => (hexValue c).any (· < base)
  match cs.takeWhile isDigit with
  | [] => none
  | ds => some (ds.foldl (fun n c => n * base + (hexValue c).getD 0) 0, cs.dropWhile isDigit)

/-- One operand at the head of the text (R49), and the rest. -/
def readOperand : List Char → Option (Operand × List Char)
  | '\'' :: c :: '\'' :: rest => (symbolOf c).map fun x => (.chr x, rest)
  | '"' :: rest =>
    match rest.dropWhile (· ≠ '"') with
    | [] => none
    | _ :: after => ((rest.takeWhile (· ≠ '"')).mapM symbolOf).map fun s => (.str s, after)
  | '-' :: rest => (readNumber 10 rest).map fun r => (.num (-(r.1 : Int)), r.2)
  | '0' :: 'x' :: rest => (readNumber 16 rest).map fun r => (.num r.1, r.2)
  | cs => (readNumber 10 cs).map fun r => (.num r.1, r.2)

/-- The text without its leading blanks. -/
def skipBlanks (cs : List Char) : List Char := cs.dropWhile fun c => c = ' ' ∨ c = '\t'

/-- Nothing but blanks and a comment remains (R49). -/
def atEnd (cs : List Char) : Bool :=
  match skipBlanks cs with
  | [] => true
  | c :: _ => c = ';'

/-- The byte of an operand of ENCBIN. -/
def operandByte : Operand → Option Byte
  | .num n => if 0 ≤ n ∧ n < 256 then some (BitVec.ofInt 8 n) else none
  | .chr c => some c
  | .str _ => none

/-- The bytes of ENCBIN, separated by commas; the first argument bounds their number. -/
def readBytes : Nat → List Char → Option (List Byte)
  | 0, _ => none
  | fuel + 1, cs =>
    match readOperand (skipBlanks cs) with
    | none => none
    | some (x, rest) =>
      match operandByte x with
      | none => none
      | some b =>
        match skipBlanks rest with
        | ',' :: more => (readBytes fuel more).map (b :: ·)
        | after => if atEnd after then some [b] else none

/-- One line of text (R49): `some none` for an empty line or a comment alone, `none` for a line R49 does not have. -/
def readLine (line : List Char) : Option (Option AsmLine) :=
  if atEnd line then some none
  else
    let cs := skipBlanks line
    let isWord := fun c => c ≠ ' ' ∧ c ≠ '\t' ∧ c ≠ ';'
    let m := cs.takeWhile isWord
    let rest := skipBlanks (cs.dropWhile isWord)
    if m = ['.', 'c', 'm', 'd'] then
      match rest with
      | '0' :: 'x' :: ds =>
        (readNumber 16 ds).bind fun r =>
          if ds.length = r.2.length + 17 ∧ atEnd r.2 then some (some (.raw (BitVec.ofNat 68 r.1))) else none
      | _ => none
    else if m = ['E', 'N', 'C', 'B', 'I', 'N'] then
      if atEnd rest then some (some (.encbin [])) else (readBytes rest.length rest).map fun b => some (.encbin b)
    else if m = ['D', 'E', 'C', 'B', 'I', 'N'] then
      match readOperand rest with
      | some (.str s, after) => if atEnd after then some (some (.decbin s)) else none
      | _ => none
    else
      (mnemonicOp m).bind fun op =>
        if atEnd rest then some (some (.command op none))
        else (readOperand rest).bind fun r => if atEnd r.2 then some (some (.command op (some r.1))) else none

/-- The command words of a listing, one command per line (R49). -/
def assemble : List (List Char) → Option (List CommandWord)
  | [] => some []
  | line :: lines =>
    match readLine line with
    | none => none
    | some none => assemble lines
    | some (some l) =>
      match assembleLine l, assemble lines with
      | some ws, some more => some (ws ++ more)
      | _, _ => none

/-- A hexadecimal digit in upper case. -/
def hexDigit (d : BitVec 4) : Char := Char.ofNat (if d.toNat < 10 then 48 + d.toNat else 55 + d.toNat)

/-- A command word as 17 hexadecimal digits: `op`, then `arg` (R45). -/
def showCommand (w : CommandWord) : List Char := ['0', 'x'] ++ (splitLanes 4 17 w).map hexDigit

/-- The line `.cmd 0x<17 hex digits>` of a command word (R49). -/
def cmdText (w : CommandWord) : List Char := ['.', 'c', 'm', 'd', ' '] ++ showCommand w

/-- A byte as an operand: `0x` and two hexadecimal digits (R49). -/
def showByte (b : Byte) : List Char := ['0', 'x'] ++ (splitLanes 4 2 b).map hexDigit

/-- The line `ENCBIN b0, ..., bn-1` (R49). -/
def encbinText (b : List Byte) : List Char :=
  ['E', 'N', 'C', 'B', 'I', 'N', ' '] ++ [',', ' '].intercalate (b.map showByte)

/-- The line `DECBIN "text"` (R49). -/
def decbinText (text : List Char) : List Char := ['D', 'E', 'C', 'B', 'I', 'N', ' ', '"'] ++ text ++ ['"']

/-- A response word as 19 hexadecimal digits: `op`, `4*kind + 2*ok`, `cnt`, `data` (R44). -/
def showResponse (w : ResponseWord) : List Char := ['0', 'x'] ++ (splitLanes 4 19 w).map hexDigit

end Sys2Proof.Machine
end

