-- ==== Sys2Proof/Machine/Ports.lean ====
section
/-! DEFINITION. The ports of the block at a rising edge of `clk` (spec/30_encoding.md R42, R43,
spec/70_reset_and_hazards.md R104, R105, R109): what the two channels carry from one edge to the next, and which moves an
edge makes. The step of the model has no clock (R112); this file says how a run of edges is a run of moves, for every
`cmd_ready` policy and every latency (notes/assumptions/4.md, 16.md, 20.md, 21.md). -/

namespace Sys2Proof.Machine

/-- The input ports at an edge (R42). -/
structure EdgeIn where
  rst : Bool
  cmdValid : Bool
  cmdWord : CommandWord
  rspReady : Bool
  deriving DecidableEq, Repr

/-- What the timing of the block decides at an edge, and no rule fixes (R108, R112): whether the block is able to accept a
command, and whether the head of the response queue has finished its latency. Neither depends on the host's inputs at this
edge (R43). -/
structure EdgeTiming where
  canAccept : Bool
  headReady : Bool
  deriving DecidableEq, Repr

/-- The block with its two channels between two edges. -/
structure Ports where
  block : State
  /-- The command that the host has presented and the block has not accepted (R43, R109). -/
  pending : Option CommandWord
  /-- `rsp_valid` has been raised for the head of the response queue, which is not delivered yet (R43). -/
  raised : Bool
  /-- The last edge had `rst = 1` (R105). -/
  inReset : Bool
  deriving DecidableEq, Repr

/-- The ports right after a reset edge, with no command presented. -/
def Ports.reset : Ports where
  block := State.reset
  pending := none
  raised := false
  inReset := true

/-- `cmd_ready` at an edge: 0 from a reset edge until the block has left reset (R105), otherwise as the timing decides. A
block whose `rst` is still 1 at this edge has not left reset; from the first edge with `rst = 0` on, when it has left reset
is the timing's (notes/assumptions/21.md). -/
def cmdReady (t : EdgeTiming) (e : EdgeIn) (p : Ports) : Bool := t.canAccept && !(p.inReset && e.rst)

/-- `rsp_valid` at an edge: the response queue is not empty and its head has finished its latency; once raised it stays
until the head is delivered (R43). -/
def rspValid (t : EdgeTiming) (p : Ports) : Bool := !p.block.rq.isEmpty && (p.raised || t.headReady)

/-- `rsp_word`: the head of the response queue while `rsp_valid = 1`; no value is specified otherwise (R42,
spec/93_implementation_defined.md U2), and the model has none. -/
def rspWord (t : EdgeTiming) (p : Ports) : Option ResponseWord := if rspValid t p then p.block.rq.head? else none

/-- A command is accepted at this edge (R43). -/
def accepts (t : EdgeTiming) (e : EdgeIn) (p : Ports) : Bool := !e.rst && e.cmdValid && cmdReady t e p

/-- A response is delivered at this edge (R43). -/
def delivers (t : EdgeTiming) (e : EdgeIn) (p : Ports) : Bool := !e.rst && rspValid t p && e.rspReady

/-- The moves of one edge. With `rst = 1` the edge is a reset and nothing is accepted or delivered (R104, R105). Otherwise
the response presented before the edge is delivered and the command is accepted; a delivery takes the head that was there
before the edge, so it comes first (notes/assumptions/16.md). -/
def edgeMoves (t : EdgeTiming) (e : EdgeIn) (p : Ports) : List HostMove :=
  if e.rst then [.reset]
  else (if delivers t e p then [.take] else []) ++ (if accepts t e p then [.command e.cmdWord] else [])

/-- One edge: the block carries out its moves; a command presented and not accepted is pending, a response presented and
not delivered stays raised, and a reset edge leaves neither. -/
def clockEdge (t : EdgeTiming) (e : EdgeIn) (p : Ports) : Host.Outcome Ports Fault Refusal :=
  andThen (runMoves (edgeMoves t e p) p.block) fun s => .next {
    block := s
    pending := if !e.rst && e.cmdValid && !accepts t e p then some e.cmdWord else none
    raised := !e.rst && rspValid t p && !delivers t e p
    inReset := e.rst }

/-- What the host owes at an edge: a pending command is still presented, with the same word (R43, R109). DESIGN CHOICE
(notes/assumptions/20.md): the duty lapses at an edge with `rst = 1`, and a reset edge leaves no command pending. R43 and
R109 name no exception and R105 says only that the host presents the command again; a host that keeps the word through
reset is admitted as well. -/
def hostHolds (e : EdgeIn) (p : Ports) : Bool :=
  e.rst || match p.pending with
    | none => true
    | some w => e.cmdValid && e.cmdWord == w

end Sys2Proof.Machine
end

