-- ==== Sys2Proof/Machine/Progress.lean ====
section
/-! DEFINITION. Endless runs of clock edges, the weak fairness of the block's two moves and the progress it promises
(spec/70_reset_and_hazards.md R108, R113; notes/assumptions/22.md). -/

namespace Sys2Proof.Machine

/-- An endless run of clock edges, from any ports, with a host that keeps what it presents (R109). -/
structure PortRun where
  timing : Nat → EdgeTiming
  input : Nat → EdgeIn
  /-- The ports before each edge. -/
  ports : Nat → Ports
  holds : ∀ n, hostHolds (input n) (ports n) = true
  edge : ∀ n, clockEdge (timing n) (input n) (ports n) = .next (ports (n + 1))

/-- The command presented at edge `n` is accepted at it. -/
def PortRun.acceptsAt (r : PortRun) (n : Nat) : Bool := accepts (r.timing n) (r.input n) (r.ports n)

/-- `rsp_valid` at edge `n`. -/
def PortRun.validAt (r : PortRun) (n : Nat) : Bool := rspValid (r.timing n) (r.ports n)

/-- A response is delivered at edge `n`. -/
def PortRun.deliversAt (r : PortRun) (n : Nat) : Bool := delivers (r.timing n) (r.input n) (r.ports n)

/-- Weak fairness of the block's two moves (R113). Accepting: a block outside reset whose response queue stays empty, so
that it has all the room it can have (R108), does not refuse for ever a command that stays presented. Presenting: while
the response queue stays non-empty outside reset, `rsp_valid` is raised at some time. -/
def PortRun.WeaklyFair (r : PortRun) : Prop :=
  (∀ n, (∀ m, n ≤ m → (r.input m).rst = false ∧ (r.input m).cmdValid = true ∧ (r.ports m).block.rq = []) →
    ∃ m, n ≤ m ∧ r.acceptsAt m = true) ∧
  (∀ n, (∀ m, n ≤ m → (r.input m).rst = false ∧ (r.ports m).block.rq ≠ []) → ∃ m, n ≤ m ∧ r.validAt m = true)

/-- The premise of R113: from edge `n` on, `rst = 0` and the host takes every presented response at some time. -/
def PortRun.HostDrainsFrom (r : PortRun) (n : Nat) : Prop :=
  ∀ m, n ≤ m → (r.input m).rst = false ∧ (r.validAt m = true → ∃ k, m ≤ k ∧ r.deliversAt k = true)

/-- The promise of R113: from edge `n` on, every presented command is accepted, and every response in the queue is
delivered, at some time. -/
def PortRun.ProgressFrom (r : PortRun) (n : Nat) : Prop :=
  (∀ m, n ≤ m → (r.input m).cmdValid = true →
    ∃ k, m ≤ k ∧ r.acceptsAt k = true ∧ (r.input k).cmdWord = (r.input m).cmdWord) ∧
  (∀ m, n ≤ m → ∃ k, m ≤ k ∧ (r.ports m).block.responses <+: (r.ports k).block.delivered)

end Sys2Proof.Machine
end

