-- ==== Sys2Proof/Machine/Reference.lean ====
section
/-! DEFINITION. The reference functions of the source (spec/00_scope.md R4): the integer codec `IntEnc`, `IntDec`
(spec/41_integer_reference.md R55, R56), the chunk functions in the source's form (spec/42_chunk_ops.md R62, R63, R65)
and the message functions `EncBin`, `DecBin` (spec/43_message_ops.md R70, R71), over natural numbers and sequences. No
opcode selects them; they say what ENCC, DECC, ENDB and ENDS compute. -/

namespace Sys2Proof.Machine

/-- The loop of R55: while `v` is not 0, prepend the digit of `v mod 32` and go on with `v div 32`. The first argument
bounds the number of rounds. -/
def intEncLoop : Nat → Nat → List Symbol → List Symbol
  | 0, _, s => s
  | fuel + 1, v, s => if v = 0 then s else intEncLoop fuel (v / 32) (canonOf (BitVec.ofNat 5 (v % 32)) :: s)

/-- `IntEnc(n)` (R55). `|n|` rounds are always enough, since each round divides by 32. -/
def intEnc (n : Int) : List Symbol :=
  if n.natAbs = 0 then [canonOf 0] else intEncLoop n.natAbs n.natAbs []

/-- One round of `IntDec`, on the accumulator and the exponent (R56): a valid symbol adds its weight and advances the
exponent, an invalid one changes neither. -/
def intDecRound (c : Symbol) (state : Nat × Nat) : Nat × Nat :=
  match valOf c with
  | some v => (state.1 + v.toNat * 32 ^ state.2, state.2 + 1)
  | none => state

/-- `IntDec(s)` (R56): the rounds run from the rightmost symbol to the leftmost. -/
def intDec (s : List Symbol) : Nat := (s.foldr intDecRound (0, 0)).1

/-- `Pack5(b)` as a number (R30): the first byte is the most significant one. -/
def packNat (b : List Byte) : Nat := b.foldl (fun n x => n * 256 + x.toNat) 0

/-- `Unpack5(n)` (R30): the 5 bytes of the low 40 bits of `n`, the most significant one first. -/
def unpackNat (n : Nat) : List Byte := (List.range 5).map fun j => BitVec.ofNat 8 (n / 256 ^ (4 - j))

/-- `EncChunk(n)` as R62 defines it: the integer encoding, padded on the left with the canonical zero to 8 symbols. -/
def encChunkRef (n : Nat) : List Symbol :=
  List.replicate (8 - (intEnc n).length) (canonOf 0) ++ intEnc n

/-- `DecGroupCnt(g)` as R65 defines it: the number the integer codec reads and the number of valid symbols. Its first
component is `DecGroup(g)` of R63. -/
def decGroupCntRef (g : List Symbol) : Nat × Nat := (intDec g, (g.filter isValid).length)

/-- `EncBin(b)` (R70). -/
def encBin (b : List Byte) : List Symbol :=
  let p := padB b.length
  let padded := List.replicate p 0 ++ b
  let k := (b.length + p) / 5
  (groupsOf 5 k padded).flatMap fun chunk => encChunkRef (packNat chunk)

/-- `DecBin(s)` (R71). -/
def decBin (s : List Symbol) : List Byte :=
  let t := s.filter isValid
  let p := padD t.length
  let padded := List.replicate p (canonOf 0) ++ t
  let k := (t.length + p) / 8
  (groupsOf 8 k padded).flatMap fun group => unpackNat (intDec group)

end Sys2Proof.Machine
end

