-- ==== Sys2Proof/WellFormed.lean ====
section
/-! DEFINITION. What well-formed terms are. Every term of `Instr` is well-formed: all 16 opcodes are commands and every
value of the argument is legal (spec/30_encoding.md R47, R48: "there are ... no reserved bit in the command word that
must be zero"). The checks with content are over response words (R44) and over the argument bits that an operation does
not read (R48, spec/93_implementation_defined.md U5). -/

namespace Sys2Proof

/-- Every command is well-formed: "Bits of `arg` that an operation does not read are ignored: any value is legal there"
(R48), and a reserved opcode is a command with an effect (R86). -/
def Instr.wf : Instr → Bool
  | .nop _ | .encd _ | .decd _ | .dset _ | .encc _ | .decc _ | .putb _ | .endb _ => true
  | .puts _ | .ends _ | .stat _ | .abort _ => true
  | .reservedC _ | .reservedD _ | .reservedE _ | .reservedF _ => true

/-- The command is one of the twelve operations, not a reserved opcode (R47). -/
def Instr.isOperation (i : Instr) : Bool := i.opcode < 0xC

/-- How many low bits of the argument the operation reads (R48). -/
def Instr.bitsRead : Instr → Nat
  | .encd _ | .dset _ | .decc _ => 64
  | .encc _ => 40
  | .decd _ | .putb _ | .puts _ => 8
  | .nop _ | .endb _ | .ends _ | .stat _ | .abort _ => 0
  | .reservedC _ | .reservedD _ | .reservedE _ | .reservedF _ => 0

/-- The argument bits that the operation does not read are 0: what U5 advises a host to send. It is no condition for the
command to be legal. -/
def Instr.unreadBitsClear (i : Instr) : Bool := i.arg.toNat < 2 ^ i.bitsRead

/-- `op` of a response word, bits [75:72] (R44). -/
def rspOp (r : ResponseWord) : Opcode := r.extractLsb' 72 4

/-- `kind` of a response word, bits [71:70] (R44). -/
def rspKind (r : ResponseWord) : BitVec 2 := r.extractLsb' 70 2

/-- `ok` of a response word, bit [69] (R44). -/
def rspOk (r : ResponseWord) : Bool := r.getLsbD 69

/-- The reserved bit of a response word, bit [68] (R44). -/
def rspReserved (r : ResponseWord) : Bool := r.getLsbD 68

/-- `cnt` of a response word, bits [67:64] (R44). -/
def rspCnt (r : ResponseWord) : BitVec 4 := r.extractLsb' 64 4

/-- `data` of a response word, bits [63:0] (R44). -/
def rspData (r : ResponseWord) : Data := r.extractLsb' 0 64

/-- What R44 says of every response word the block produces, field by field: the reserved bit is 0; a RESULT comes from a
command with a single response and its `ok` is 1 for ENCC, STAT, ABORT and 0 for a reserved opcode; a DATA comes from
ENDB or ENDS with `ok` 1 and `cnt` 0; a DONE comes from ENDB or ENDS; kind `0b11` is never produced. -/
def rspWellFormed (r : ResponseWord) : Bool :=
  !rspReserved r &&
  match (rspKind r).getLsbD 1, (rspKind r).getLsbD 0 with
  | false, false =>
    (rspOp r ≠ 0x0 && rspOp r ≠ 0x6 && rspOp r ≠ 0x7 && rspOp r ≠ 0x8 && rspOp r ≠ 0x9) &&
    (!(rspOp r = 0x4 || rspOp r = 0xA || rspOp r = 0xB) || rspOk r) &&
    (rspOp r < 0xC || !rspOk r)
  | false, true => (rspOp r = 0x7 || rspOp r = 0x9) && rspOk r && rspCnt r = 0
  | true, false => rspOp r = 0x7 || rspOp r = 0x9
  | true, true => false

end Sys2Proof
end

