-- ==== Sys2Proof/Safety.lean ====
section
/-! DEFINITION. What counts as a safe run: the invariant of the machine, runs without a fault in the spec's sense
(spec/60_exceptions.md R95) and the end of a run (spec/70_reset_and_hazards.md R114). -/

namespace Sys2Proof.Machine

/-- What holds at reset and every step keeps: each buffer is within its capacity (R21, R22), an overflow flag is set only
while its buffer is full (R75, R77), a set flag has marked the run (R95), and every response word has the form that R44
says the block produces. -/
abbrev State.Inv (s : State) : Prop :=
  s.eb.length ≤ s.params.capB ∧ s.db.length ≤ s.params.capD ∧
  (s.flags.ovfb = true → s.eb.length = s.params.capB) ∧ (s.flags.ovfd = true → s.db.length = s.params.capD) ∧
  ((s.flags.ovfb || s.flags.ovfd || s.flags.ill) = true → s.faulted = true) ∧
  s.rq.all rspWellFormed = true ∧ s.delivered.all rspWellFormed = true

/-- The responses that one command appends in a state, in order (R38). -/
def newResponses (i : Instr) (s : State) : List ResponseWord :=
  match exec i s with
  | .next t => t.rq.drop s.rq.length
  | .fault _ => []
  | .refused _ => []

/-- The responses of an ENDB that codes the message `b`, in the source's terms (R76): a DATA beat for every 8 symbols of
`EncBin(b)`, then DONE with the number of pad bytes and the number of beats. -/
def binaryMessageResponses (b : List Byte) : List ResponseWord :=
  let k := (b.length + padB b.length) / 5
  (groupsOf 8 k (encBin b)).map (fun g => dataWord 0x7 (joinLanes 64 g)) ++
    [doneWord 0x7 true (BitVec.ofNat 4 (padB b.length)) (BitVec.ofNat 64 k)]

/-- The responses of an ENDS that decodes the text `text`, in the source's terms (R78): a DATA beat for every 5 bytes of
`DecBin(text)`, the chunk in `data[39:0]`, then DONE with the number of pad digits and the number of beats. -/
def textMessageResponses (text : List Symbol) : List ResponseWord :=
  let m := (text.filter isValid).length
  let k := (m + padD m) / 8
  (groupsOf 5 k (decBin text)).map (fun b => dataWord 0x9 (BitVec.ofNat 64 (packNat b))) ++
    [doneWord 0x9 true (BitVec.ofNat 4 (padD m)) (BitVec.ofNat 64 k)]

/-- The run is over: every command has been executed, that is, no command is among the coming moves, and every response is
taken (R114). -/
def State.runOver (s : State) : Bool := (commandsOf s.input).isEmpty && s.rq.isEmpty

/-- The run is over and clean: in addition both buffers are empty and no flag is set (R114). -/
def State.runClean (s : State) : Bool :=
  s.runOver && s.eb.isEmpty && s.db.isEmpty && !(s.flags.ovfb || s.flags.ovfd || s.flags.ill)

/-- No flag was set since the last reset: the premise R95 asks of a claim about coded output. -/
def State.faultFree (s : State) : Bool := !s.faulted

end Sys2Proof.Machine
end

