-- ==== Sys2Proof/Certificates/Slice0/Obligations.lean ====
section
/-! DEFINITION. The statements about the model, one per obligation. Each docstring names the rule of the spec that the
statement formalises, or the sections it rests on. A statement about the mark `faulted`, a field of the model's own, says
so; where a rule's effect also sets the mark, the statement leaves the mark open (`∃ mark`). -/

open Sys2Proof Sys2Proof.Machine

/-! ### Encoding -/

/-- Every command survives encoding and decoding, with every value of its argument, and every 68-bit word survives decoding
and encoding: each word has one meaning and no bit is dropped (spec/30_encoding.md sections 2, 3). -/
def Obligations.DecodeEncodeRoundTrip : Prop :=
  (∀ i : Instr, decode (encode i) = i) ∧ ∀ w : CommandWord, encode (decode w) = w

/-- The opcode map R47, with an arbitrary argument: `op` alone selects the operation. -/
def Obligations.OpcodeSelectsOperation : Prop :=
  ∀ a : Arg,
    decode (0x0#4 ++ a) = .nop a ∧ decode (0x1#4 ++ a) = .encd a ∧ decode (0x2#4 ++ a) = .decd a ∧
    decode (0x3#4 ++ a) = .dset a ∧ decode (0x4#4 ++ a) = .encc a ∧ decode (0x5#4 ++ a) = .decc a ∧
    decode (0x6#4 ++ a) = .putb a ∧ decode (0x7#4 ++ a) = .endb a ∧ decode (0x8#4 ++ a) = .puts a ∧
    decode (0x9#4 ++ a) = .ends a ∧ decode (0xA#4 ++ a) = .stat a ∧ decode (0xB#4 ++ a) = .abort a ∧
    decode (0xC#4 ++ a) = .reservedC a ∧ decode (0xD#4 ++ a) = .reservedD a ∧
    decode (0xE#4 ++ a) = .reservedE a ∧ decode (0xF#4 ++ a) = .reservedF a

/-- Command words written out by the spec decode to the commands they stand for (spec/95_test_vectors.md section 2). -/
def Obligations.SpecWordsDecode : Prop :=
  decode 0x00000000000000000#68 = .nop 0 ∧ decode 0x1000000000000001B#68 = .encd 27 ∧
  decode 0x20000000000000075#68 = .decd 0x75 ∧ decode 0x3FFFFFFFFFFFFFFFF#68 = .dset 0xFFFFFFFFFFFFFFFF ∧
  decode 0x400000048656C6C6F#68 = .encc 0x48656C6C6F ∧ decode 0x539314A4E51563346#68 = .decc 0x39314A4E51563346 ∧
  decode 0x6FFFFFFFFFFFFFF48#68 = .putb 0xFFFFFFFFFFFFFF48 ∧ decode 0x8000000000000004A#68 = .puts 0x4A ∧
  decode 0xB0000000000000000#68 = .abort 0 ∧ decode 0xF123456789ABCDEF0#68 = .reservedF 0x123456789ABCDEF0

/-- The fields of the three kinds of response word are where R44 puts them, and the reserved bit is 0 (spec/30_encoding.md
section 2). -/
def Obligations.ResponseWordFields : Prop :=
  ∀ (op : Opcode) (ok : Bool) (cnt : BitVec 4) (d : Data),
    (∀ r ∈ [resultWord op ok cnt d, dataWord op d, doneWord op ok cnt d],
      rspOp r = op ∧ rspReserved r = false ∧ rspData r = d) ∧
    (rspKind (resultWord op ok cnt d) = 0b00 ∧ rspOk (resultWord op ok cnt d) = ok ∧
      rspCnt (resultWord op ok cnt d) = cnt) ∧
    (rspKind (dataWord op d) = 0b01 ∧ rspOk (dataWord op d) = true ∧ rspCnt (dataWord op d) = 0) ∧
    (rspKind (doneWord op ok cnt d) = 0b10 ∧ rspOk (doneWord op ok cnt d) = ok ∧ rspCnt (doneWord op ok cnt d) = cnt)

/-- The argument bits that an operation does not read make no difference: two commands of one opcode that agree on the low
bits the operation reads have the same effect in every state (spec/30_encoding.md section 4, U5). -/
def Obligations.UnreadArgumentBitsIgnored : Prop :=
  ∀ (i j : Instr) (s : State), i.opcode = j.opcode → i.arg.toNat % 2 ^ i.bitsRead = j.arg.toNat % 2 ^ i.bitsRead →
    exec i s = exec j s

/-- The five examples of R49 assemble to the words it gives: a decimal operand, a character, a hexadecimal operand, a string,
no operand. A negative operand is in two's complement and a comment may follow it; a line that is a comment alone
assembles to nothing (the model's choice, log entry 17). The line `.cmd` gives its word, whatever the word. As lines of
text and as parsed lines, ENCBIN and DECBIN expand to words that decode to their PUT commands in order and one END command
(spec/30_encoding.md section 5; the code of a character is log entry 12, and a text in double quotes holds none). -/
def Obligations.AssemblerFormsAndExpansions : Prop :=
  assemble [['E', 'N', 'C', 'D', ' ', '2', '7']] = some [0x1000000000000001B#68] ∧
  assemble [['D', 'E', 'C', 'D', ' ', '\'', 'u', '\'']] = some [0x20000000000000075#68] ∧
  assemble [['E', 'N', 'C', 'C', ' ', '0', 'x', '4', '8', '6', '5', '6', 'C', '6', 'C', '6', 'F']] =
    some [0x400000048656C6C6F#68] ∧
  assemble [['D', 'E', 'C', 'C', ' ', '"', '9', '1', 'J', 'N', 'Q', 'V', '3', 'F', '"']] =
    some [0x539314A4E51563346#68] ∧
  assemble [['E', 'N', 'D', 'B']] = some [0x70000000000000000#68] ∧
  assemble [['E', 'N', 'C', 'D', ' ', '-', '1', ' ', ';', 'n']] = some [0x1FFFFFFFFFFFFFFFF#68] ∧
  assemble [['E', 'N', 'D', 'B'], [';'], ['E', 'N', 'D', 'B']] =
    some [0x70000000000000000#68, 0x70000000000000000#68] ∧
  (∀ w : CommandWord, assemble [cmdText w] = some [w]) ∧
  (∀ b : List Byte, (assemble [encbinText b]).map (List.map decode) =
    some (b.map (fun x => .putb (x.setWidth 64)) ++ [.endb 0])) ∧
  (∀ text : List Char, (∀ c ∈ text, c.toNat < 128 ∧ c ≠ '"') → (assemble [decbinText text]).map (List.map decode) =
    some (text.map (fun c => .puts (BitVec.ofNat 64 c.toNat)) ++ [.ends 0])) ∧
  (∀ b : List Byte, (assembleLine (.encbin b)).map (List.map decode) =
    some (b.map (fun x => .putb (x.setWidth 64)) ++ [.endb 0])) ∧
  ∀ text : List Symbol, (assembleLine (.decbin text)).map (List.map decode) =
    some (text.map (fun c => .puts (c.setWidth 64)) ++ [.ends 0])

/-! ### The digit table and the digit operations -/

/-- R18 and R20: the canonical symbol is the first of its entry, and the canonical alphabet; 62 valid codes, exactly the ASCII letters and digits; entries pairwise disjoint;
canonical symbols decode to their index; the entry sizes; lower and upper case of a letter have one value. -/
def Obligations.DigitTableLaws : Prop :=
  (∀ i : Digit, (entryOf i).head? = some (canonOf i)) ∧
  ((List.range 32).map (fun i => canonOf (BitVec.ofNat 5 i)) =
    ['0', '1', '2', '3', '4', '5', '6', '7', '8', '9', 'A', 'B', 'C', 'D', 'E', 'F', 'G', 'H', 'J', 'K', 'L', 'M', 'N', 'P',
      'Q', 'R', 'T', 'V', 'W', 'X', 'Y', 'Z'].map (fun c => BitVec.ofNat 8 c.toNat)) ∧
  ((List.range 256).countP (fun c => isValid (BitVec.ofNat 8 c)) = 62) ∧
  (∀ c : Symbol, isValid c = true ↔
    (0x30 ≤ c.toNat ∧ c.toNat ≤ 0x39) ∨ (0x41 ≤ c.toNat ∧ c.toNat ≤ 0x5A) ∨ (0x61 ≤ c.toNat ∧ c.toNat ≤ 0x7A)) ∧
  (∀ (c : Symbol) (i j : Digit), c ∈ entryOf i → c ∈ entryOf j → i = j) ∧
  (∀ i : Digit, valOf (canonOf i) = some i) ∧
  ((List.range 32).map (fun i => (entryOf (BitVec.ofNat 5 i)).length) =
    [3, 3, 1, 1, 1, 3, 1, 1, 1, 1] ++ List.replicate 17 2 ++ [4] ++ List.replicate 4 2) ∧
  (∀ c : Symbol, 0x41 ≤ c.toNat → c.toNat ≤ 0x5A → valOf (c + 0x20) = valOf c)

/-- R19: the complete function VAL over all 256 codes, by code range, and its meaning as a scan of the table. -/
def Obligations.ValByCodeRange : Prop :=
  let upper : Nat → Option Nat := fun n =>
    if n < 0x30 then none
    else if n ≤ 0x39 then some (n - 0x30)
    else if n ≤ 0x40 then none
    else if n ≤ 0x48 then some (n - 0x41 + 10)
    else if n = 0x49 then some 1
    else if n ≤ 0x4E then some (n - 0x4A + 18)
    else if n = 0x4F then some 0
    else if n ≤ 0x52 then some (n - 0x50 + 23)
    else if n = 0x53 then some 5
    else if n = 0x54 then some 26
    else if n = 0x55 then some 27
    else if n ≤ 0x5A then some (n - 0x56 + 27)
    else none
  (∀ c : Symbol, (valOf c).map BitVec.toNat =
    if 0x61 ≤ c.toNat ∧ c.toNat ≤ 0x7A then upper (c.toNat - 0x20) else upper c.toNat) ∧
  (∀ (c : Symbol) (i : Digit), valOf c = some i ↔ c ∈ entryOf i)

/-- R50: ENCD answers the canonical symbol of a value 0 to 31 and "absent" for every other argument; nothing but the
response queue changes. -/
def Obligations.EncdAnswersCanonicalSymbol : Prop :=
  ∀ (arg : Arg) (s : State),
    (arg.toNat ≤ 31 → exec (.encd arg) s = .next { s with
      rq := s.rq ++ [resultWord 0x1 true 0 ((canonOf (BitVec.ofNat 5 arg.toNat)).setWidth 64)] }) ∧
    (31 < arg.toNat → exec (.encd arg) s = .next { s with rq := s.rq ++ [resultWord 0x1 false 0 0] })

/-- R51: DECD answers the index of the entry that contains the symbol `arg[7:0]`, and "absent" if no entry does; nothing
but the response queue changes. -/
def Obligations.DecdAnswersIndexOfEntry : Prop :=
  ∀ (arg : Arg) (s : State),
    (∀ v : Digit, BitVec.ofNat 8 arg.toNat ∈ entryOf v →
      exec (.decd arg) s = .next { s with rq := s.rq ++ [resultWord 0x2 true 0 (BitVec.ofNat 64 v.toNat)] }) ∧
    ((∀ v : Digit, BitVec.ofNat 8 arg.toNat ∉ entryOf v) →
      exec (.decd arg) s = .next { s with rq := s.rq ++ [resultWord 0x2 false 0 0] })

/-- R52: DSET answers one table entry for an index 0 to 31: `cnt` is the number of its symbols, lane `[7:0]` the canonical
one, the lanes below `cnt` the symbols of the entry in some order (C4: no more is claimed of the order of aliases), the
lanes from `cnt` on 0. For every other index it answers like "absent" (the spec's own choice, D23, U8). Nothing but the
response queue changes. -/
def Obligations.DsetAnswersEntry : Prop :=
  ∀ (arg : Arg) (s : State),
    (arg.toNat ≤ 31 → ∃ d : Data,
      exec (.dset arg) s = .next { s with rq := s.rq ++
        [resultWord 0x3 true (BitVec.ofNat 4 (entryOf (BitVec.ofNat 5 arg.toNat)).length) d] } ∧
      d.extractLsb' 0 8 = canonOf (BitVec.ofNat 5 arg.toNat) ∧
      ∃ lanes : List Symbol, lanes.Perm (entryOf (BitVec.ofNat 5 arg.toNat)) ∧
        (List.range 8).map (fun j => d.extractLsb' (8 * j) 8) = lanes ++ List.replicate (8 - lanes.length) 0) ∧
    (31 < arg.toNat → exec (.dset arg) s = .next { s with rq := s.rq ++ [resultWord 0x3 false 0 0] })

/-- R53: the laws of the digit operations. (a) DECD undoes ENCD; (b) ENCD of the value of a valid symbol is the canonical
symbol of its entry, which is the symbol itself exactly when it is canonical; (c) ENCD is injective on 0 to 31 and DECD is
not injective on the valid symbols; (d) DECD is present for exactly 62 symbols; (e) ENCD and DSET are present for exactly
the 32 arguments below 32. -/
def Obligations.DigitOperationLaws : Prop :=
  (∀ (v : Digit) (s : State), ∃ r q, newResponses (.encd (v.setWidth 64)) s = [r] ∧ rspOk r = true ∧
    newResponses (.decd (rspData r)) s = [q] ∧ rspOk q = true ∧ rspData q = v.setWidth 64) ∧
  (∀ (c : Symbol) (v : Digit) (s : State), c ∈ entryOf v → ∃ q r, newResponses (.decd (c.setWidth 64)) s = [q] ∧
    rspOk q = true ∧ newResponses (.encd (rspData q)) s = [r] ∧ rspOk r = true ∧
    rspData r = (canonOf v).setWidth 64 ∧ (rspData r = c.setWidth 64 ↔ ∃ i : Digit, c = canonOf i)) ∧
  (∀ (v w : Digit) (s : State), newResponses (.encd (v.setWidth 64)) s = newResponses (.encd (w.setWidth 64)) s → v = w) ∧
  (∃ c e : Symbol, c ≠ e ∧ isValid c = true ∧ isValid e = true ∧
    ∀ s : State, newResponses (.decd (c.setWidth 64)) s = newResponses (.decd (e.setWidth 64)) s) ∧
  (∀ s : State, (List.range 256).countP (fun c =>
    (newResponses (.decd (BitVec.ofNat 64 c)) s).any rspOk) = 62) ∧
  (∀ (a : Arg) (s : State), ((newResponses (.encd a) s).any rspOk = true ↔ a.toNat < 32) ∧
    ((newResponses (.dset a) s).any rspOk = true ↔ a.toNat < 32))

/-- ENCD, DECD, DSET, ENCC, DECC are pure: each answers one response that depends on its argument alone, in every state,
and changes nothing but the response queue (spec/40_digit_ops.md R54, spec/42_chunk_ops.md R69 in part). -/
def Obligations.PureCommandsDependOnArgumentAlone : Prop :=
  ∀ a : Arg, ∀ i ∈ [Instr.encd a, .decd a, .dset a, .encc a, .decc a],
    ∃ r : ResponseWord, ∀ s : State, exec i s = .next { s with rq := s.rq ++ [r] }

/-! ### The integer codec and the chunk engine -/

/-- R59: decoding an encoded integer gives its absolute value; encoding a decoded string gives the string back exactly when
it is an encoded digit string: only canonical symbols, no leading `'0'` unless it is `"0"`. -/
def Obligations.IntegerCodecRoundTrip : Prop :=
  (∀ n : Nat, intDec (intEnc n) = n) ∧ (∀ n : Int, intDec (intEnc n) = n.natAbs) ∧
  (∀ n : Int, intEnc n = intEnc (-n)) ∧ intEnc (intDec [0x6F, 0x31]) = [0x31] ∧
  (∀ s : List Symbol, intEnc (intDec s) = s ↔
    s ≠ [] ∧ (∀ c ∈ s, ∃ i : Digit, c = canonOf i) ∧ (s.head? = some (canonOf 0) → s = [canonOf 0]))

/-- R60: invalid symbols make no difference to IntDec, and the value of a concatenation. -/
def Obligations.IntDecSkipLaw : Prop :=
  (∀ s : List Symbol, intDec s = intDec (s.filter isValid)) ∧
  (∀ s t : List Symbol, intDec (s ++ t) = intDec s * 32 ^ (t.filter isValid).length + intDec t)

/-- R61: the length of an encoded digit string is the least `k >= 1` with `|n| < 32^k`, so at most 8 exactly for numbers
below 2^40. -/
def Obligations.NumeralLength : Prop :=
  (∀ n : Int, n ≠ 0 → 1 ≤ (intEnc n).length ∧ n.natAbs < 32 ^ (intEnc n).length ∧
    ∀ k, 1 ≤ k → n.natAbs < 32 ^ k → (intEnc n).length ≤ k) ∧
  (intEnc 0).length = 1 ∧
  (∀ n : Int, (intEnc n).length ≤ 8 ↔ n.natAbs < 2 ^ 40)

/-- R64: the fixed-width chunk engine is the integer codec of R62 and R63, on every chunk and on every group of 8 valid
symbols, bit for bit. -/
def Obligations.ChunkEngineRefinesIntegerCodec : Prop :=
  (∀ n : Chunk, encChunkRef n.toNat = encChunk n ∧ encChunk n =
    [canonOf (n.extractLsb' 35 5), canonOf (n.extractLsb' 30 5), canonOf (n.extractLsb' 25 5), canonOf (n.extractLsb' 20 5),
      canonOf (n.extractLsb' 15 5), canonOf (n.extractLsb' 10 5), canonOf (n.extractLsb' 5 5),
      canonOf (n.extractLsb' 0 5)]) ∧
  (∀ (g : List Symbol) (v0 v1 v2 v3 v4 v5 v6 v7 : Digit),
    g.map valOf = [some v0, some v1, some v2, some v3, some v4, some v5, some v6, some v7] →
    intDec g = (v0 ++ v1 ++ v2 ++ v3 ++ v4 ++ v5 ++ v6 ++ v7).toNat ∧
    decGroupCnt g = (v0 ++ v1 ++ v2 ++ v3 ++ v4 ++ v5 ++ v6 ++ v7, 8))

/-- DecGroupCnt in the fixed-width form is the integer codec of R65 on every group of at most 8 symbols, valid or not, and
the value always fits 40 bits (R63) (spec/42_chunk_ops.md section 1). -/
def Obligations.GroupDecoderFollowsIntegerCodec : Prop :=
  ∀ g : List Symbol, g.length ≤ 8 →
    intDec g < 2 ^ 40 ∧ (decGroupCnt g).1.toNat = intDec g ∧ (decGroupCnt g).2 = (g.filter isValid).length

/-- R66 with R62: ENCC answers the 8 symbols of EncChunk of the number `arg[39:0]`, first in `[63:56]`; `ok` is always 1;
nothing but the response queue changes. -/
def Obligations.EnccAnswersEncodedChunk : Prop :=
  ∀ (arg : Arg) (s : State), ∃ g0 g1 g2 g3 g4 g5 g6 g7 : Symbol,
    [g0, g1, g2, g3, g4, g5, g6, g7] =
      List.replicate (8 - (intEnc (arg.toNat % 2 ^ 40 : Nat)).length) (canonOf 0) ++ intEnc (arg.toNat % 2 ^ 40 : Nat) ∧
    exec (.encc arg) s = .next { s with
      rq := s.rq ++ [resultWord 0x4 true 0 (g0 ++ g1 ++ g2 ++ g3 ++ g4 ++ g5 ++ g6 ++ g7)] }

/-- R67 with R65: DECC answers the integer that the codec reads from the 8 symbols of `arg`, the first in `arg[63:56]`, and
the number of valid symbols; `ok` is 1 exactly when all 8 are valid; nothing but the response queue changes. The answer on
fewer than 8 valid symbols is the spec's own choice (D11, U7; log entry 14). -/
def Obligations.DeccAnswersDecodedGroup : Prop :=
  ∀ (arg : Arg) (s : State),
    let g := [arg.extractLsb' 56 8, arg.extractLsb' 48 8, arg.extractLsb' 40 8, arg.extractLsb' 32 8, arg.extractLsb' 24 8,
      arg.extractLsb' 16 8, arg.extractLsb' 8 8, arg.extractLsb' 0 8]
    let m := (g.filter isValid).length
    exec (.decc arg) s = .next { s with
      rq := s.rq ++ [resultWord 0x5 (decide (m = 8)) (BitVec.ofNat 4 m) (BitVec.ofNat 64 (intDec g))] }

/-- R68: DECC of the data that ENCC returns gives the chunk back with all 8 symbols valid; encoding the value of a group of
8 valid symbols replaces every alias by the canonical symbol of its entry; EncChunk is injective, and every chunk is the
value of a group, of more than one in general. -/
def Obligations.ChunkRoundTrip : Prop :=
  (∀ (arg : Arg) (s : State), ∃ r, newResponses (.encc arg) s = [r] ∧
    newResponses (.decc (rspData r)) s = [resultWord 0x5 true 8 (BitVec.ofNat 64 (arg.toNat % 2 ^ 40))]) ∧
  (∀ g : List Symbol, g.length = 8 → (∀ c ∈ g, isValid c = true) →
    encChunk (decGroupCnt g).1 = g.map (fun c => ((valOf c).map canonOf).getD c) ∧
    (encChunk (decGroupCnt g).1 = g ↔ ∀ c ∈ g, ∃ i : Digit, c = canonOf i)) ∧
  (∀ n m : Chunk, encChunk n = encChunk m → n = m) ∧
  (∀ n : Chunk, ∃ g : List Symbol, g.length = 8 ∧ (∀ c ∈ g, isValid c = true) ∧ decGroupCnt g = (n, 8)) ∧
  (∃ g h : List Symbol, g ≠ h ∧ g.length = 8 ∧ h.length = 8 ∧ (∀ c ∈ g ++ h, isValid c = true) ∧
    decGroupCnt g = decGroupCnt h)

/-- R30: byte order inside a chunk is big-endian in both directions, as a number and as a 40-bit vector, and Pack5 and
Unpack5 are inverse. -/
def Obligations.ChunkByteOrder : Prop :=
  (∀ b0 b1 b2 b3 b4 : Byte,
    packNat [b0, b1, b2, b3, b4] =
      b0.toNat * 2 ^ 32 + b1.toNat * 2 ^ 24 + b2.toNat * 2 ^ 16 + b3.toNat * 2 ^ 8 + b4.toNat ∧
    (joinLanes 40 [b0, b1, b2, b3, b4] : Chunk) = b0 ++ b1 ++ b2 ++ b3 ++ b4 ∧
    (joinLanes 40 [b0, b1, b2, b3, b4] : Chunk).toNat = packNat [b0, b1, b2, b3, b4] ∧
    unpackNat (packNat [b0, b1, b2, b3, b4]) = [b0, b1, b2, b3, b4]) ∧
  (∀ n : Chunk, unpackNat n.toNat =
      [n.extractLsb' 32 8, n.extractLsb' 24 8, n.extractLsb' 16 8, n.extractLsb' 8 8, n.extractLsb' 0 8] ∧
    packNat (unpackNat n.toNat) = n.toNat)

/-! ### The message functions of the source -/

/-- The round trip of a message: decoding the encoding returns the message with `padB` zero bytes in front, so the message
itself when its length is a multiple of 5 (spec/43_message_ops.md section 1, law (a)). -/
def Obligations.MessageRoundTrip : Prop :=
  (∀ b : List Byte, decBin (encBin b) = List.replicate (padB b.length) 0 ++ b) ∧
  (∀ b : List Byte, b.length % 5 = 0 → decBin (encBin b) = b)

/-- The lengths of coded messages (spec/43_message_ops.md section 1, law (b)). -/
def Obligations.MessageLengths : Prop :=
  (∀ b : List Byte, (encBin b).length = 8 * ((b.length + 4) / 5)) ∧
  (∀ s : List Symbol, (decBin s).length = 5 * (((s.filter isValid).length + 7) / 8))

/-- Invalid symbols, aliases and case make no difference to the decoding of a message (spec/43_message_ops.md section 1,
law (c)). -/
def Obligations.DecBinIgnoresJunkAliasesAndCase : Prop :=
  (∀ s : List Symbol, decBin s = decBin (s.filter isValid)) ∧
  (∀ s t : List Symbol, s.filterMap valOf = t.filterMap valOf → decBin s = decBin t)

/-- Encoding a decoded text gives its valid symbols in canonical form, padded on the left with zero digits
(spec/43_message_ops.md section 1, law (d)). -/
def Obligations.ReencodingCanonicalises : Prop :=
  ∀ s : List Symbol, encBin (decBin s) =
    List.replicate (padD (s.filterMap valOf).length) (canonOf 0) ++ (s.filterMap valOf).map canonOf

/-- The whole-number view: the bytes of a decoded text are the big-endian form of the number that the integer codec reads
from it, and a coded non-empty message is the numeral of its big-endian number, padded to a multiple of 8 digits
(spec/43_message_ops.md section 1, law (e)); the empty message codes to nothing (C1). -/
def Obligations.WholeNumberView : Prop :=
  (∀ s : List Symbol, packNat (decBin s) = intDec s) ∧
  (∀ b : List Byte, b ≠ [] → encBin b =
    List.replicate (8 * ((b.length + 4) / 5) - (intEnc (packNat b : Nat)).length) (canonOf 0) ++ intEnc (packNat b : Nat)) ∧
  encBin [] = []

/-- EncBin is injective on messages of one length, and leading zero bytes up to the padding do not show
(spec/43_message_ops.md section 1, law (f)). -/
def Obligations.EncBinInjectivePerLength : Prop :=
  (∀ b c : List Byte, b.length = c.length → encBin b = encBin c → b = c) ∧
  (∀ (b : List Byte) (j : Nat), j ≤ padB b.length → encBin (List.replicate j 0 ++ b) = encBin b)

/-! ### The message operations -/

/-- R75: PUTB appends the byte `arg[7:0]` while there is room; on a full buffer it drops the byte and sets OVFB. When OVFB
is already 1, in a state that keeps the invariant, the buffer is full and PUTB leaves the state unchanged. -/
def Obligations.PutbAppendsOrOverflows : Prop :=
  ∀ (arg : Arg) (s : State),
    (s.eb.length < s.params.capB →
      exec (.putb arg) s = .next { s with eb := s.eb ++ [BitVec.ofNat 8 arg.toNat] }) ∧
    (s.params.capB ≤ s.eb.length → ∃ mark, exec (.putb arg) s = .next { s with
      flags := { s.flags with ovfb := true }, faulted := mark }) ∧
    (s.Inv → s.flags.ovfb = true → s.eb.length = s.params.capB ∧ exec (.putb arg) s = .next s)

/-- R76 with R70: ENDB without overflow emits the beats of EncBin of the buffer in order and DONE with the pad count and
the number of beats; after an overflow it emits one DONE with `ok = 0`, which is the spec's own choice (D13, U6; log entry
14); it empties the buffer and clears OVFB in both cases, and changes nothing else. -/
def Obligations.EndbCodesTheBuffer : Prop :=
  ∀ (arg : Arg) (s : State),
    (s.flags.ovfb = false → exec (.endb arg) s = .next { s with
      eb := [], flags := { s.flags with ovfb := false }, rq := s.rq ++ binaryMessageResponses s.eb }) ∧
    (s.flags.ovfb = true → exec (.endb arg) s = .next { s with
      eb := [], flags := { s.flags with ovfb := false }, rq := s.rq ++ [doneWord 0x7 false 0 0] })

/-- R77: PUTS of an invalid symbol changes nothing, also on a full buffer; PUTS of a symbol of entry `v` appends `v` while
there is room; on a full buffer it drops the digit and sets OVFD. When OVFD is already 1, in a state that keeps the
invariant, the buffer is full and PUTS leaves the state unchanged, whatever the symbol. -/
def Obligations.PutsAppendsValidSymbols : Prop :=
  ∀ (arg : Arg) (s : State),
    ((∀ v : Digit, BitVec.ofNat 8 arg.toNat ∉ entryOf v) → exec (.puts arg) s = .next s) ∧
    (∀ v : Digit, BitVec.ofNat 8 arg.toNat ∈ entryOf v →
      (s.db.length < s.params.capD → exec (.puts arg) s = .next { s with db := s.db ++ [v] }) ∧
      (s.params.capD ≤ s.db.length → ∃ mark, exec (.puts arg) s = .next { s with
        flags := { s.flags with ovfd := true }, faulted := mark })) ∧
    (s.Inv → s.flags.ovfd = true → s.db.length = s.params.capD ∧ exec (.puts arg) s = .next s)

/-- R78 with R71: ENDS without overflow emits the chunks of DecBin of the text whose digits are in the buffer, in order,
and DONE with the pad count and the number of beats; after an overflow it emits one DONE with `ok = 0`, which is the spec's
own choice (D13, U6; log entry 14); it empties the buffer and clears OVFD in both cases, and changes nothing else. -/
def Obligations.EndsDecodesTheBuffer : Prop :=
  ∀ (arg : Arg) (s : State),
    (s.flags.ovfd = false → exec (.ends arg) s = .next { s with
      db := [], flags := { s.flags with ovfd := false }, rq := s.rq ++ textMessageResponses (s.db.map canonOf) }) ∧
    (s.flags.ovfd = true → exec (.ends arg) s = .next { s with
      db := [], flags := { s.flags with ovfd := false }, rq := s.rq ++ [doneWord 0x9 false 0 0] })

/-- A binary message of at most CAPB bytes, pushed byte by byte into an empty buffer and closed, is answered with its
EncBin, and the state is as before but for the responses (spec/43_message_ops.md sections 1 to 3). -/
def Obligations.PushedBytesAreCoded : Prop :=
  ∀ (args : List Arg) (e : Arg) (s : State), s.eb = [] → s.flags.ovfb = false → args.length ≤ s.params.capB →
    execAll (args.map .putb ++ [.endb e]) s = .next { s with
      rq := s.rq ++ binaryMessageResponses (args.map fun a => BitVec.ofNat 8 a.toNat) }

/-- A text with at most CAPD valid symbols, pushed symbol by symbol into an empty buffer and closed, is answered with its
DecBin, invalid symbols and all, and the state is as before but for the responses (spec/43_message_ops.md sections 1 to 4).
This is the unobservability of storing digit values instead of symbols. -/
def Obligations.PushedSymbolsAreDecoded : Prop :=
  ∀ (args : List Arg) (e : Arg) (s : State), s.db = [] → s.flags.ovfd = false →
    ((args.map fun a => (BitVec.ofNat 8 a.toNat : Symbol)).filter isValid).length ≤ s.params.capD →
    execAll (args.map .puts ++ [.ends e]) s = .next { s with
      rq := s.rq ++ textMessageResponses (args.map fun a => BitVec.ofNat 8 a.toNat) }

/-- A message longer than its buffer is refused whole: no DATA beat, one DONE with `ok = 0`, and the buffer is empty and
the flag clear afterwards. The refusal is the spec's own choice (D13, U6; log entry 14, a DESIGN CHOICE), for the source
bounds no message (spec/43_message_ops.md section 4). -/
def Obligations.OverlongMessageRefusedWhole : Prop :=
  (∀ (args : List Arg) (e : Arg) (s : State), s.eb = [] → s.params.capB < args.length → ∃ mark,
    execAll (args.map .putb ++ [.endb e]) s = .next { s with
      flags := { s.flags with ovfb := false }, rq := s.rq ++ [doneWord 0x7 false 0 0], faulted := mark }) ∧
  (∀ (args : List Arg) (e : Arg) (s : State), s.db = [] →
    s.params.capD < ((args.map fun a => (BitVec.ofNat 8 a.toNat : Symbol)).filter isValid).length → ∃ mark,
    execAll (args.map .puts ++ [.ends e]) s = .next { s with
      flags := { s.flags with ovfd := false }, rq := s.rq ++ [doneWord 0x9 false 0 0], faulted := mark })

/-- R80, under the reading of conflict C1 (D28, U1; log entry 9, a DESIGN CHOICE): the empty message, also a text of invalid symbols only, is answered with one
DONE with `ok = 1`, `cnt = 0`, `data = 0` and no DATA beat. -/
def Obligations.EmptyMessageHasNoBeats : Prop :=
  (∀ (e : Arg) (s : State), s.eb = [] → s.flags.ovfb = false →
    exec (.endb e) s = .next { s with rq := s.rq ++ [doneWord 0x7 true 0 0] }) ∧
  (∀ (args : List Arg) (e : Arg) (s : State), s.db = [] → s.flags.ovfd = false →
    (∀ a ∈ args, isValid (BitVec.ofNat 8 a.toNat) = false) →
    execAll (args.map .puts ++ [.ends e]) s = .next { s with rq := s.rq ++ [doneWord 0x9 true 0 0] })

/-- The source's round trip carried out by the block: a message of a multiple of 5 bytes is coded by ENCBIN; DECBIN of the
coded text, run in the state that ENCBIN leaves, answers chunks that spell the message (spec/43_message_ops.md sections 1 to 3, spec/30_encoding.md
section 5). -/
def Obligations.BlockRoundTrip : Prop :=
  ∀ (b : List Byte) (s : State), b.length % 5 = 0 → b.length ≤ s.params.capB → 8 * (b.length / 5) ≤ s.params.capD →
    s.eb = [] → s.db = [] → s.flags.ovfb = false → s.flags.ovfd = false →
    ∃ coded decoded : List ResponseWord,
      execAll (encbinCommands b) s = .next { s with rq := s.rq ++ coded } ∧
      ((coded.dropLast.map rspData).flatMap fun d => splitLanes 8 8 d) = encBin b ∧
      execAll (decbinCommands (encBin b)) { s with rq := s.rq ++ coded } =
        .next { s with rq := s.rq ++ coded ++ decoded } ∧
      ((decoded.dropLast.map rspData).flatMap fun d => unpackNat d.toNat) = b

/-- The encode path and the decode path share no mutable state: PUTB and ENDB neither change DB and OVFD nor depend on
them, nor PUTS and ENDS on EB and OVFB (spec/20_memory.md section 5). -/
def Obligations.EncodeAndDecodePathsIndependent : Prop :=
  (∀ (a : Arg) (s : State), ∀ i ∈ [Instr.putb a, .endb a], ∃ (eb' : List Byte) (ovfb' mark : Bool) (ws : List ResponseWord),
    ∀ (d : List Digit) (o l : Bool), exec i { s with db := d, flags := ⟨s.flags.ovfb, o, l⟩ } = .next { s with
      eb := eb', db := d, flags := ⟨ovfb', o, l⟩, rq := s.rq ++ ws, faulted := mark }) ∧
  (∀ (a : Arg) (s : State), ∀ i ∈ [Instr.puts a, .ends a], ∃ (db' : List Digit) (ovfd' mark : Bool) (ws : List ResponseWord),
    ∀ (b : List Byte) (o l : Bool), exec i { s with eb := b, flags := ⟨o, s.flags.ovfd, l⟩ } = .next { s with
      eb := b, db := db', flags := ⟨o, ovfd', l⟩, rq := s.rq ++ ws, faulted := mark })

/-- Commands of a binary message and of a text message may be interleaved in any way: exchanging neighbours changes
nothing, as long as at most one of them emits responses (spec/43_message_ops.md section 2). -/
def Obligations.MessagesInterleave : Prop :=
  ∀ (a b : Arg) (s : State),
    execAll [.putb a, .puts b] s = execAll [.puts b, .putb a] s ∧
    execAll [.putb a, .ends b] s = execAll [.ends b, .putb a] s ∧
    execAll [.endb a, .puts b] s = execAll [.puts b, .endb a] s

/-! ### Control operations, flags and status -/

/-- R83: NOP changes no state element and emits no response. -/
def Obligations.NopChangesNothing : Prop := ∀ (arg : Arg) (s : State), exec (.nop arg) s = .next s

/-- R84: STAT answers the status word, whose fields are concatenated as R84 says, and changes nothing else. -/
def Obligations.StatAnswersStatus : Prop :=
  ∀ (arg : Arg) (s : State), exec (.stat arg) s = .next { s with rq := s.rq ++ [resultWord 0xA true 0
    (0#13 ++ BitVec.ofBool s.flags.ill ++ BitVec.ofBool s.flags.ovfd ++ BitVec.ofBool s.flags.ovfb ++
      BitVec.ofNat 24 s.db.length ++ BitVec.ofNat 24 s.eb.length)] }

/-- The fields of STATUS read back what they show, exactly, in every state that keeps the invariant (spec/10_state.md
section 5). -/
def Obligations.StatusFieldsShowTheState : Prop :=
  ∀ s : State, s.Inv →
    ((statusWord s).extractLsb' 0 24).toNat = s.eb.length ∧ ((statusWord s).extractLsb' 24 24).toNat = s.db.length ∧
    (statusWord s).getLsbD 48 = s.flags.ovfb ∧ (statusWord s).getLsbD 49 = s.flags.ovfd ∧
    (statusWord s).getLsbD 50 = s.flags.ill ∧ (statusWord s).extractLsb' 51 13 = 0

/-- R85: ABORT empties both buffers, clears all three flags, keeps the responses already in the queue and answers one
RESULT with `ok = 1`. -/
def Obligations.AbortClearsBuffersAndFlags : Prop :=
  ∀ (arg : Arg) (s : State), exec (.abort arg) s = .next { s with
    eb := [], db := [], flags := { ovfb := false, ovfd := false, ill := false },
    rq := s.rq ++ [resultWord 0xB true 0 0] }

/-- R86: a reserved opcode sets ILL, answers RESULT with `op` echoed and `ok = 0`, and leaves the buffers and the overflow
flags unchanged. That a reserved opcode runs is the spec's own decision and the model's choice (D16, U3; log entry 11, a
DESIGN CHOICE): no claim about coded results should rest on it. -/
def Obligations.ReservedOpcodesSetIll : Prop :=
  ∀ (a : Arg) (s : State),
    ∀ p ∈ [(Instr.reservedC a, (0xC : Opcode)), (.reservedD a, 0xD), (.reservedE a, 0xE), (.reservedF a, 0xF)],
      ∃ mark, exec p.1 s = .next { s with
        flags := { s.flags with ill := true }, rq := s.rq ++ [resultWord p.2 false 0 0], faulted := mark }

/-- Which commands write which flag (R24): each flag is set by its one setter under its condition and cleared by its
clearers, and no other command changes it (spec/10_state.md section 5). -/
def Obligations.FlagsHaveTheirOwnWriters : Prop :=
  ∀ (i : Instr) (s t : State), exec i s = .next t →
    (t.flags.ovfb ≠ s.flags.ovfb →
      (t.flags.ovfb = true ∧ s.params.capB ≤ s.eb.length ∧ ∃ a, i = .putb a) ∨
      (t.flags.ovfb = false ∧ ∃ a, i = .endb a ∨ i = .abort a)) ∧
    (t.flags.ovfd ≠ s.flags.ovfd →
      (t.flags.ovfd = true ∧ s.params.capD ≤ s.db.length ∧ ∃ a, i = .puts a ∧ isValid (BitVec.ofNat 8 a.toNat) = true) ∨
      (t.flags.ovfd = false ∧ ∃ a, i = .ends a ∨ i = .abort a)) ∧
    (t.flags.ill ≠ s.flags.ill →
      (t.flags.ill = true ∧ i.isOperation = false) ∨ (t.flags.ill = false ∧ ∃ a, i = .abort a))

/-- The mark of a faulted run, a field of the model's own (log entry 6): a command that sets a flag sets the mark, no
command and no delivery clears it, and reset clears it; in a run without the mark no flag is set (spec/60_exceptions.md
section 1). -/
def Obligations.FaultMarkIsSticky : Prop :=
  (∀ (i : Instr) (s t : State), exec i s = .next t → s.faulted = true → t.faulted = true) ∧
  (∀ (i : Instr) (s t : State), exec i s = .next t →
    (t.flags.ovfb = true ∧ s.flags.ovfb = false ∨ t.flags.ovfd = true ∧ s.flags.ovfd = false ∨
      t.flags.ill = true ∧ s.flags.ill = false) → t.faulted = true) ∧
  (∀ (i : Instr) (s t : State), exec i s = .next t → s.faulted = false → t.faulted = true →
    t.flags.ovfb = true ∨ t.flags.ovfd = true ∨ t.flags.ill = true) ∧
  (∀ s t : State, move .take s = .next t → t.faulted = s.faulted) ∧
  (∀ s t : State, move .reset s = .next t → t.faulted = false) ∧
  (∀ s : State, s.Inv → s.faultFree = true → s.flags = ⟨false, false, false⟩)

/-! ### The whole machine -/

/-- R26: after reset the buffers and the response queue are empty, all flags are 0 and STATUS reads 0, for every capacity;
and a reset move brings every state there, keeping the block's capacities. -/
def Obligations.ResetState : Prop :=
  (State.reset.eb = [] ∧ State.reset.db = [] ∧ State.reset.flags = ⟨false, false, false⟩ ∧ State.reset.rq = [] ∧
    statusWord State.reset = 0) ∧
  (∀ s : State, ∃ t, move .reset s = .next t ∧ t.eb = [] ∧ t.db = [] ∧ t.flags = ⟨false, false, false⟩ ∧ t.rq = [] ∧
    statusWord t = 0 ∧ t.params = s.params)

/-- The invariant holds at reset, whatever the capacities. -/
def Obligations.ResetMeetsInvariant : Prop := State.reset.Inv ∧ ∀ p : Params, (State.resetWith p).Inv

/-- Every step keeps the invariant: buffers within their capacities, an overflow flag only over a full buffer, a set flag
only in a marked run, every response word of the form R44 gives it (spec/10_state.md sections 4 and 5,
spec/30_encoding.md section 2). -/
def Obligations.StepKeepsInvariant : Prop := ∀ s t : State, s.Inv → step s = .next t → t.Inv

/-- A step runs the decoded command: when the host's next move presents the word of `i`, the step is exec of `i` on the
state with that move consumed; and the word that the harness places is the very next command to run
(spec/20_memory.md section 5; log entry 2). -/
def Obligations.StepRunsDecodedCommand : Prop :=
  (∀ (s : State) (w : CommandWord) (rest : List HostMove), s.input = .command w :: rest →
    step s = exec (decode w) { s with input := rest }) ∧
  (∀ (s : State) (i : Instr) (rest : List HostMove), s.input = .command (encode i) :: rest →
    step s = exec i { s with input := rest }) ∧
  (∀ (s : State) (nbits w : Nat) (i : Instr), decodeTableWord nbits w = some i →
    step (s.withFetchWord nbits w) = exec i s)

/-- The other steps: the host takes the head of the response queue, or nothing when it is empty (log entry 8, DEDUCED from
R43); the host resets the block; with no move left the block waits and the step leaves the state (log entry 2, the model's
choice beside R103). The field `delivered` is the model's own (log entry 7) (spec/20_memory.md section 5,
spec/30_encoding.md section 1, spec/60_exceptions.md section 3, spec/70_reset_and_hazards.md section 1). -/
def Obligations.StepTakesResetsOrWaits : Prop :=
  (∀ (s : State) (w : ResponseWord) (q : List ResponseWord) (rest : List HostMove), s.input = .take :: rest →
    s.rq = w :: q → step s = .next { s with input := rest, rq := q, delivered := s.delivered ++ [w] }) ∧
  (∀ (s : State) (rest : List HostMove), s.input = .take :: rest → s.rq = [] →
    step s = .next { s with input := rest }) ∧
  (∀ (s : State) (rest : List HostMove), s.input = .reset :: rest →
    step s = .next { State.resetWith s.params with input := rest }) ∧
  (∀ s : State, s.input = [] → step s = .next s)

/-- Every operation is total and no step stops: for every state and every command there is exactly one next state
(spec/60_exceptions.md section 2). -/
def Obligations.EveryStepHasNextState : Prop :=
  (∀ (i : Instr) (s : State), ∃ t, exec i s = .next t) ∧ (∀ s : State, ∃ t, step s = .next t)

/-- A command changes only the buffers, the flags, the mark and the tail of the response queue: it appends its responses
and leaves the delivered words, the coming moves and the capacities alone (spec/20_memory.md section 5,
spec/30_encoding.md section 1). -/
def Obligations.CommandsOnlyAppendResponses : Prop :=
  ∀ (i : Instr) (s t : State), exec i s = .next t →
    t.rq = s.rq ++ newResponses i s ∧ t.delivered = s.delivered ∧ t.input = s.input ∧ t.params = s.params ∧
    ∀ r ∈ newResponses i s, rspOp r = i.opcode

/-- Every command emits a bounded number of responses: ENDB and ENDS one more than the groups of a full buffer, every other
command at most one, NOP, PUTB and PUTS none (spec/70_reset_and_hazards.md sections 3 and 4). -/
def Obligations.ResponsesPerCommandBounded : Prop :=
  ∀ (i : Instr) (s : State), s.Inv →
    (newResponses i s).length ≤ match i with
      | .nop _ | .putb _ | .puts _ => 0
      | .endb _ => (s.params.capB + 4) / 5 + 1
      | .ends _ => (s.params.capD + 7) / 8 + 1
      | .encd _ | .decd _ | .dset _ | .encc _ | .decc _ | .stat _ | .abort _ => 1
      | .reservedC _ | .reservedD _ | .reservedE _ | .reservedF _ => 1

/-- What the host sees depends on the commands alone: two runs without reset that present the same commands, with responses
taken at any other times, cause the same responses in the same order and leave the same buffers and flags. The clauses on
`faulted` and `delivered` are about the model's own fields (log entries 6 and 7) (spec/20_memory.md section 5). -/
def Obligations.ResponsesDependOnCommandsAlone : Prop :=
  ∀ (s t u : State) (ms ns : List HostMove), .reset ∉ ms → .reset ∉ ns → commandsOf ms = commandsOf ns →
    runMoves ms s = .next t → runMoves ns s = .next u →
    t.responses = u.responses ∧ t.eb = u.eb ∧ t.db = u.db ∧ t.flags = u.flags ∧ t.faulted = u.faulted ∧
    (t.rq = [] → u.rq = [] → t.delivered = u.delivered)

/-- Progress. The run of the machine carries out every move of the host, one a step, in order, and ends with no move left.
At the ports, in every endless run of clock edges in which the block's two moves are weakly fair (log entry 22): if from
some edge on `rst = 0` and the host takes every presented response at some time, then from that edge on every presented
command is accepted and every response in the queue is delivered at some time (spec/70_reset_and_hazards.md sections 3
and 4). -/
def Obligations.RunCarriesOutEveryMove : Prop :=
  (∀ (r : PortRun) (n : Nat), r.WeaklyFair → r.HostDrainsFrom n → r.ProgressFrom n) ∧
  ∀ s : State, ∃ t : State, Sys2Proof.core.run s.input.length s = .next t ∧ t.input = [] ∧
    runMoves s.input { s with input := [] } = .next t

/-- Taking a response and executing a command may be exchanged while the queue is not empty: it does not matter when the
host takes its responses (spec/20_memory.md section 5, spec/30_encoding.md section 1). -/
def Obligations.TakingCommutesWithCommands : Prop :=
  ∀ (i : Instr) (s : State), s.rq ≠ [] →
    andThen (exec i s) (move .take) = andThen (move .take s) (exec i)

/-- The handshake at a clock edge without reset. A response presented and not delivered is still presented at the next
edge, with the same word, whatever the block's timing; the head of the queue stays until it is delivered, and a delivery
hands over `rsp_word`. A command presented and not accepted is still presented, with the same word, by a host that keeps
its duty at the next edge without reset. Without an accepted command the buffers and flags stay; at most one command is
accepted and at most one response delivered (spec/30_encoding.md section 1, spec/70_reset_and_hazards.md section 3). The
field `delivered` is the model's own (log entry 7). -/
def Obligations.ResponseHeldUntilDelivered : Prop :=
  ∀ (tm : EdgeTiming) (e : EdgeIn) (p q : Ports), clockEdge tm e p = .next q → e.rst = false →
    (rspValid tm p = true → delivers tm e p = false →
      ∀ tm' : EdgeTiming, rspValid tm' q = true ∧ rspWord tm' q = rspWord tm p) ∧
    (delivers tm e p = false → p.block.rq ≠ [] →
      q.block.rq.head? = p.block.rq.head? ∧ q.block.delivered = p.block.delivered) ∧
    (delivers tm e p = true → ∃ w, rspWord tm p = some w ∧ q.block.delivered = p.block.delivered ++ [w]) ∧
    (e.cmdValid = true → accepts tm e p = false → ∀ e' : EdgeIn, e'.rst = false → hostHolds e' q = true →
      e'.cmdValid = true ∧ e'.cmdWord = e.cmdWord) ∧
    (accepts tm e p = false → q.block.eb = p.block.eb ∧ q.block.db = p.block.db ∧ q.block.flags = p.block.flags) ∧
    (commandsOf (edgeMoves tm e p)).length ≤ 1 ∧ (edgeMoves tm e p).count .take ≤ 1

/-- At a clock edge with `rst = 1` nothing is accepted or delivered, whatever the other inputs are, and the block is emptied.
After it `rsp_valid` is 0, and `cmd_ready` is 0 at a next edge that still has `rst = 1` (when a block whose `rst` is 0 has
left reset is log entry 21). From then on `rsp_valid` stays 0 over every edge that accepts no command
(spec/70_reset_and_hazards.md section 1). -/
def Obligations.ResetEdgeDropsEverything : Prop :=
  (∀ (tm : EdgeTiming) (e : EdgeIn) (p : Ports), e.rst = true →
    accepts tm e p = false ∧ delivers tm e p = false ∧
    ∃ q, clockEdge tm e p = .next q ∧ q.block.eb = [] ∧ q.block.db = [] ∧ q.block.flags = ⟨false, false, false⟩ ∧
      q.block.rq = [] ∧ (∀ tm' : EdgeTiming, rspValid tm' q = false) ∧
      ∀ (tm' : EdgeTiming) (e' : EdgeIn), e'.rst = true → cmdReady tm' e' q = false) ∧
  (∀ (tm : EdgeTiming) (e : EdgeIn) (p q : Ports), p.block.rq = [] → accepts tm e p = false →
    clockEdge tm e p = .next q → q.block.rq = [] ∧ ∀ tm' : EdgeTiming, rspValid tm' q = false)

/-- A run is over exactly when no command is left to execute and no response to take; a run that is over is clean exactly
when STATUS reads 0 (spec/70_reset_and_hazards.md section 4). -/
def Obligations.CleanRunReadsZeroStatus : Prop :=
  (∀ s : State, s.runOver = true ↔ (∀ w, HostMove.command w ∉ s.input) ∧ s.rq = []) ∧
  ∀ s : State, s.Inv → (s.runClean = true ↔ (∀ w, HostMove.command w ∉ s.input) ∧ s.rq = [] ∧ statusWord s = 0)
end

