-- ==== Sys2Proof/Laws/Lanes.lean ====
section
/-! SUPPORT. What joining and splitting lanes does, in numbers: a joined vector is the number whose base `2^w` digits are
the elements, and splitting is the inverse. Later proofs cite these lemmas and never unfold the lanes. -/

namespace Sys2Proof.Machine

variable {w m : Nat}

/-- The number whose base `2^w` digits are the elements of `l`, most significant first. -/
def laneNumber (l : List (BitVec w)) : Nat := l.foldl (fun n x => n * 2 ^ w + x.toNat) 0

theorem laneNumber_foldl (l : List (BitVec w)) (n : Nat) :
    l.foldl (fun n x => n * 2 ^ w + x.toNat) n = n * 2 ^ (w * l.length) + laneNumber l := by
  induction l generalizing n with
  | nil => simp [laneNumber]
  | cons x l ih =>
    have h := ih x.toNat
    simp only [laneNumber, List.foldl_cons, Nat.zero_mul, Nat.zero_add, List.length_cons] at h ⊢
    rw [ih (n * 2 ^ w + x.toNat), h, Nat.mul_succ, Nat.pow_add]
    simp only [laneNumber]
    ring

theorem laneNumber_nil : laneNumber ([] : List (BitVec w)) = 0 := rfl

theorem laneNumber_cons (x : BitVec w) (l : List (BitVec w)) :
    laneNumber (x :: l) = x.toNat * 2 ^ (w * l.length) + laneNumber l := by
  rw [laneNumber, List.foldl_cons, laneNumber_foldl]; simp

theorem laneNumber_append (l r : List (BitVec w)) :
    laneNumber (l ++ r) = laneNumber l * 2 ^ (w * r.length) + laneNumber r := by
  rw [laneNumber, List.foldl_append, laneNumber_foldl]; rfl

theorem laneNumber_lt (l : List (BitVec w)) : laneNumber l < 2 ^ (w * l.length) := by
  induction l with
  | nil => simp [laneNumber]
  | cons x l ih =>
    rw [laneNumber_cons, List.length_cons, Nat.mul_succ, Nat.pow_add, Nat.mul_comm (2 ^ (w * l.length))]
    have hx : x.toNat + 1 ≤ 2 ^ w := x.isLt
    calc _ < (x.toNat + 1) * 2 ^ (w * l.length) := by rw [Nat.add_mul]; omega
      _ ≤ _ := Nat.mul_le_mul_right _ hx

/-- One round of `joinLanes` in numbers: shift up by one lane and add. -/
theorem shift_or_eq_ofNat (acc : BitVec m) (x : BitVec w) :
    (acc <<< w) ||| x.setWidth m = BitVec.ofNat m (acc.toNat * 2 ^ w + x.toNat) := by
  apply BitVec.eq_of_toNat_eq
  rw [BitVec.toNat_or, BitVec.toNat_shiftLeft, BitVec.toNat_setWidth, BitVec.toNat_ofNat, ← Nat.or_mod_two_pow,
    ← Nat.shiftLeft_add_eq_or_of_lt x.isLt, Nat.shiftLeft_eq]

/-- Joining lanes gives the number of the lanes, cut to the width of the result. -/
theorem joinLanes_eq_ofNat (l : List (BitVec w)) : joinLanes m l = BitVec.ofNat m (laneNumber l) := by
  have go : ∀ acc : BitVec m,
      List.foldl (fun (acc : BitVec m) (x : BitVec w) => (acc <<< w) ||| x.setWidth m) acc l =
        BitVec.ofNat m (l.foldl (fun n x => n * 2 ^ w + x.toNat) acc.toNat) := by
    induction l with
    | nil => simp
    | cons x l ih =>
      intro acc
      rw [List.foldl_cons, List.foldl_cons, ih, shift_or_eq_ofNat]
      apply BitVec.eq_of_toNat_eq
      simp only [BitVec.toNat_ofNat, laneNumber_foldl]
      rw [Nat.add_mod, Nat.mul_mod, Nat.mod_mod, ← Nat.mul_mod, ← Nat.add_mod]
  simpa [joinLanes, laneNumber] using go 0

/-- Joined lanes that fit the result are the number of the lanes. -/
theorem joinLanes_toNat (l : List (BitVec w)) (h : w * l.length ≤ m) : (joinLanes m l).toNat = laneNumber l := by
  rw [joinLanes_eq_ofNat, BitVec.toNat_ofNat, Nat.mod_eq_of_lt]
  exact Nat.lt_of_lt_of_le (laneNumber_lt l) (Nat.pow_le_pow_right (by decide) h)

theorem length_splitLanes (k : Nat) (v : BitVec m) : (splitLanes w k v).length = k := by simp [splitLanes]

theorem splitLanes_zero (v : BitVec m) : splitLanes w 0 v = [] := rfl

/-- The first lane is the most significant one; the others are the lanes below it. -/
theorem splitLanes_succ (k : Nat) (v : BitVec m) :
    splitLanes w (k + 1) v = v.extractLsb' (w * k) w :: splitLanes w k v := by
  simp only [splitLanes, List.range_succ_eq_map, List.map_cons, List.map_map, Nat.add_sub_cancel, Nat.sub_zero,
    List.cons.injEq, true_and]
  apply List.map_congr_left
  intro j _
  simp only [Function.comp_apply, show k - (j + 1) = k - 1 - j by omega]

/-- The lanes spell the low `w * k` bits of the vector. -/
theorem laneNumber_splitLanes (k : Nat) (v : BitVec m) : laneNumber (splitLanes w k v) = v.toNat % 2 ^ (w * k) := by
  induction k with
  | zero => simp [splitLanes_zero, laneNumber_nil, Nat.mod_one]
  | succ k ih =>
    rw [splitLanes_succ, laneNumber_cons, length_splitLanes, ih, BitVec.extractLsb'_toNat, Nat.shiftRight_eq_div_pow,
      Nat.mul_succ, Nat.pow_add, Nat.mod_mul]
    ring

/-- Splitting depends on the low `w * k` bits alone. -/
theorem splitLanes_congr {m' : Nat} (k : Nat) (v : BitVec m) (v' : BitVec m')
    (h : v.toNat % 2 ^ (w * k) = v'.toNat % 2 ^ (w * k)) : splitLanes w k v = splitLanes w k v' := by
  induction k with
  | zero => rfl
  | succ k ih =>
    rw [Nat.mul_succ, Nat.pow_add, Nat.mod_mul, Nat.mod_mul] at h
    have hlt := Nat.mod_lt v.toNat (Nat.two_pow_pos (w * k))
    have hlt' := Nat.mod_lt v'.toNat (Nat.two_pow_pos (w * k))
    have hlow : v.toNat % 2 ^ (w * k) = v'.toNat % 2 ^ (w * k) := by
      have := congrArg (· % 2 ^ (w * k)) h
      simpa [Nat.add_mul_mod_self_left, Nat.mod_eq_of_lt hlt, Nat.mod_eq_of_lt hlt'] using this
    have hhigh : v.toNat / 2 ^ (w * k) % 2 ^ w = v'.toNat / 2 ^ (w * k) % 2 ^ w := by
      rw [hlow] at h
      exact Nat.eq_of_mul_eq_mul_left (Nat.two_pow_pos (w * k)) (Nat.add_left_cancel h)
    rw [splitLanes_succ, splitLanes_succ, ih hlow]
    congr 1
    apply BitVec.eq_of_toNat_eq
    simpa [BitVec.extractLsb'_toNat, Nat.shiftRight_eq_div_pow] using hhigh

/-- Splitting a joined sequence gives the sequence back, when its lanes fit. -/
theorem splitLanes_joinLanes (l : List (BitVec w)) (h : w * l.length ≤ m) :
    splitLanes w l.length (joinLanes m l) = l := by
  have key : ∀ n : Nat, n = laneNumber l → ∀ v : BitVec m, v.toNat = n → splitLanes w l.length v = l := by
    clear h
    induction l with
    | nil => intros; rfl
    | cons x l ih =>
      intro n hn v hv
      have hlt := laneNumber_lt l
      rw [laneNumber_cons] at hn
      rw [List.length_cons, splitLanes_succ]
      have hx : v.extractLsb' (w * l.length) w = x := by
        apply BitVec.eq_of_toNat_eq
        rw [BitVec.extractLsb'_toNat, Nat.shiftRight_eq_div_pow, hv, hn, Nat.mul_comm,
          Nat.mul_add_div (Nat.two_pow_pos _), Nat.div_eq_of_lt hlt, Nat.add_zero, Nat.mod_eq_of_lt x.isLt]
      have hm : laneNumber l < 2 ^ m := by
        have := v.isLt
        rw [hv, hn] at this
        omega
      have htail : splitLanes w l.length v = splitLanes w l.length (BitVec.ofNat m (laneNumber l)) := by
        apply splitLanes_congr
        rw [BitVec.toNat_ofNat, Nat.mod_eq_of_lt hm, hv, hn, Nat.mul_add_mod_self_right]
      rw [hx, htail, ih (laneNumber l) rfl _ (by rw [BitVec.toNat_ofNat, Nat.mod_eq_of_lt hm])]
  exact key _ rfl _ (joinLanes_toNat l h)

/-- Joining the lanes of a vector gives its low `w * k` bits. -/
theorem joinLanes_splitLanes {m' : Nat} (k : Nat) (v : BitVec m) :
    joinLanes m' (splitLanes w k v) = BitVec.ofNat m' (v.toNat % 2 ^ (w * k)) := by
  rw [joinLanes_eq_ofNat, laneNumber_splitLanes]

/-- Joining all the lanes of a vector gives the vector back. -/
theorem joinLanes_splitLanes_self (k : Nat) (h : m = w * k) (v : BitVec m) : joinLanes m (splitLanes w k v) = v := by
  subst h
  rw [joinLanes_splitLanes, Nat.mod_eq_of_lt v.isLt, BitVec.ofNat_toNat, BitVec.setWidth_eq]

section Groups

variable {α β : Type}

theorem length_groupsOf (n k : Nat) (l : List α) : (groupsOf n k l).length = k := by
  induction k generalizing l with
  | zero => rfl
  | succ k ih => simp [groupsOf, ih]

/-- Every group of a sequence of `n * k` elements has `n` elements. -/
theorem length_of_mem_groupsOf (n k : Nat) (l : List α) (h : l.length = n * k) (g : List α) (hg : g ∈ groupsOf n k l) :
    g.length = n := by
  induction k generalizing l with
  | zero => simp [groupsOf] at hg
  | succ k ih =>
    rw [Nat.mul_succ] at h
    rcases List.mem_cons.mp hg with rfl | hg
    · simp; omega
    · exact ih (l.drop n) (by simp; omega) hg

/-- The groups of a sequence of `n * k` elements, one after the other, are the sequence. -/
theorem flatten_groupsOf (n k : Nat) (l : List α) (h : l.length = n * k) : (groupsOf n k l).flatten = l := by
  induction k generalizing l with
  | zero => simpa [groupsOf] using (List.length_eq_zero_iff.mp (by simpa using h)).symm
  | succ k ih =>
    rw [Nat.mul_succ] at h
    simp [groupsOf, ih (l.drop n) (by simp; omega)]

/-- Grouping a sequence that was put together from groups of `n` elements gives those groups. -/
theorem groupsOf_flatten (n : Nat) (gs : List (List α)) (h : ∀ g ∈ gs, g.length = n) :
    groupsOf n gs.length gs.flatten = gs := by
  induction gs with
  | nil => rfl
  | cons g gs ih =>
    have hg : g.length = n := h g (by simp)
    simp [groupsOf, ← hg]
    simpa [hg] using ih fun x hx => h x (by simp [hx])

theorem map_groupsOf (f : α → β) (n k : Nat) (l : List α) :
    groupsOf n k (l.map f) = (groupsOf n k l).map (List.map f) := by
  induction k generalizing l with
  | zero => rfl
  | succ k ih => simp [groupsOf, ← ih, List.map_take, List.map_drop]

end Groups

/-- The padded length of a binary message is a multiple of 5. -/
theorem padB_spec (n : Nat) : 5 * ((n + padB n) / 5) = n + padB n := by unfold padB; omega

/-- The padded number of digits of a text message is a multiple of 8. -/
theorem padD_spec (m : Nat) : 8 * ((m + padD m) / 8) = m + padD m := by unfold padD; omega

theorem padB_lt (n : Nat) : padB n < 5 := by unfold padB; omega

theorem padD_lt (m : Nat) : padD m < 8 := by unfold padD; omega

end Sys2Proof.Machine
end

