-- ==== Sys2Proof/Laws/Assembler.lean ====
section
/-! SUPPORT. Reading back the hexadecimal digits that the assembler's printers write. -/

namespace Sys2Proof.Machine

theorem hexValue_hexDigit (d : BitVec 4) : hexValue (hexDigit d) = some d.toNat := by
  revert d; decide

/-- A number ends at the first character that is no digit of its base. -/
theorem readNumber_append (base : Nat) (ds rest : List Char) (hds : ds ≠ [])
    (hdig : ∀ c ∈ ds, (hexValue c).any (· < base) = true)
    (hrest : ∀ c, rest.head? = some c → (hexValue c).any (· < base) = false) :
    readNumber base (ds ++ rest) = some (ds.foldl (fun n c => n * base + (hexValue c).getD 0) 0, rest) := by
  have ht : rest.takeWhile (fun c => (hexValue c).any (· < base)) = [] ∧
      rest.dropWhile (fun c => (hexValue c).any (· < base)) = rest := by
    cases rest with
    | nil => exact ⟨rfl, rfl⟩
    | cons c cs => simp [hrest c rfl]
  simp only [readNumber, List.takeWhile_append_of_pos hdig, List.dropWhile_append_of_pos hdig, ht, List.append_nil]

/-- Hexadecimal digits read back as the number of their lanes. -/
theorem readNumber_hexDigits (l : List (BitVec 4)) (rest : List Char) (hl : l ≠ [])
    (hrest : ∀ c, rest.head? = some c → hexValue c = none) :
    readNumber 16 (l.map hexDigit ++ rest) = some (laneNumber l, rest) := by
  rw [readNumber_append 16 _ rest (by simpa using hl) ?_ (fun c hc => by simp [hrest c hc])]
  · simp [List.foldl_map, hexValue_hexDigit, laneNumber]
  · simp only [List.mem_map, forall_exists_index, and_imp]
    rintro c d - rfl
    simp [hexValue_hexDigit, d.isLt]

/-- A byte that is written out reads back. -/
theorem readOperand_showByte (b : Byte) (rest : List Char) (hrest : ∀ c, rest.head? = some c → hexValue c = none) :
    readOperand (showByte b ++ rest) = some (.num b.toNat, rest) := by
  have h := readNumber_hexDigits (splitLanes 4 2 b) rest (by simp [splitLanes]) hrest
  rw [laneNumber_splitLanes, Nat.mod_eq_of_lt (by simpa using b.isLt)] at h
  simp [showByte, readOperand, h]

end Sys2Proof.Machine
end

