-- ==== Sys2Proof/Laws/DigitTable.lean ====
section
/-! SUPPORT. The two lookups of the digit table, said once for all digit values. -/

namespace Sys2Proof.Machine

/-- The canonical symbol of a value has that value. -/
theorem valOf_canonOf (v : Digit) : valOf (canonOf v) = some v := by
  revert v; decide +kernel

/-- A canonical symbol is valid. -/
theorem isValid_canonOf (v : Digit) : isValid (canonOf v) = true := by rw [isValid, valOf_canonOf]; rfl

/-- A symbol has the value `v` exactly when it is in entry `v`. -/
theorem valOf_eq_some_iff (c : Symbol) (v : Digit) : valOf c = some v ↔ c ∈ entryOf v := by
  revert c v; decide +kernel

/-- The symbols of a sequence of values decode to the values. -/
theorem filterMap_valOf_map_canonOf (d : List Digit) : (d.map canonOf).filterMap valOf = d := by
  induction d with
  | nil => rfl
  | cons v d ih => simp [valOf_canonOf, ih]

end Sys2Proof.Machine
end

