-- ==== Sys2Proof/Laws/State.lean ====
section
/-! SUPPORT. One lemma per field of the state and shared update, each true by definition, so that no later proof unfolds a
record update. -/

namespace Sys2Proof.Machine

@[simp] theorem emitAll_eb (ws : List ResponseWord) (s : State) : (emitAll ws s).eb = s.eb := rfl
@[simp] theorem emitAll_db (ws : List ResponseWord) (s : State) : (emitAll ws s).db = s.db := rfl
@[simp] theorem emitAll_flags (ws : List ResponseWord) (s : State) : (emitAll ws s).flags = s.flags := rfl
@[simp] theorem emitAll_rq (ws : List ResponseWord) (s : State) : (emitAll ws s).rq = s.rq ++ ws := rfl
@[simp] theorem emitAll_params (ws : List ResponseWord) (s : State) : (emitAll ws s).params = s.params := rfl
@[simp] theorem emitAll_input (ws : List ResponseWord) (s : State) : (emitAll ws s).input = s.input := rfl
@[simp] theorem emitAll_delivered (ws : List ResponseWord) (s : State) : (emitAll ws s).delivered = s.delivered := rfl
@[simp] theorem emitAll_faulted (ws : List ResponseWord) (s : State) : (emitAll ws s).faulted = s.faulted := rfl

@[simp] theorem emit_eb (w : ResponseWord) (s : State) : (emit w s).eb = s.eb := rfl
@[simp] theorem emit_db (w : ResponseWord) (s : State) : (emit w s).db = s.db := rfl
@[simp] theorem emit_flags (w : ResponseWord) (s : State) : (emit w s).flags = s.flags := rfl
@[simp] theorem emit_rq (w : ResponseWord) (s : State) : (emit w s).rq = s.rq ++ [w] := rfl
@[simp] theorem emit_params (w : ResponseWord) (s : State) : (emit w s).params = s.params := rfl
@[simp] theorem emit_input (w : ResponseWord) (s : State) : (emit w s).input = s.input := rfl
@[simp] theorem emit_delivered (w : ResponseWord) (s : State) : (emit w s).delivered = s.delivered := rfl
@[simp] theorem emit_faulted (w : ResponseWord) (s : State) : (emit w s).faulted = s.faulted := rfl

@[simp] theorem setOvfb_eb (s : State) : (setOvfb s).eb = s.eb := rfl
@[simp] theorem setOvfb_db (s : State) : (setOvfb s).db = s.db := rfl
@[simp] theorem setOvfb_flags (s : State) : (setOvfb s).flags = ⟨true, s.flags.ovfd, s.flags.ill⟩ := rfl
@[simp] theorem setOvfb_rq (s : State) : (setOvfb s).rq = s.rq := rfl
@[simp] theorem setOvfb_params (s : State) : (setOvfb s).params = s.params := rfl
@[simp] theorem setOvfb_input (s : State) : (setOvfb s).input = s.input := rfl
@[simp] theorem setOvfb_delivered (s : State) : (setOvfb s).delivered = s.delivered := rfl
@[simp] theorem setOvfb_faulted (s : State) : (setOvfb s).faulted = true := rfl

@[simp] theorem setOvfd_eb (s : State) : (setOvfd s).eb = s.eb := rfl
@[simp] theorem setOvfd_db (s : State) : (setOvfd s).db = s.db := rfl
@[simp] theorem setOvfd_flags (s : State) : (setOvfd s).flags = ⟨s.flags.ovfb, true, s.flags.ill⟩ := rfl
@[simp] theorem setOvfd_rq (s : State) : (setOvfd s).rq = s.rq := rfl
@[simp] theorem setOvfd_params (s : State) : (setOvfd s).params = s.params := rfl
@[simp] theorem setOvfd_input (s : State) : (setOvfd s).input = s.input := rfl
@[simp] theorem setOvfd_delivered (s : State) : (setOvfd s).delivered = s.delivered := rfl
@[simp] theorem setOvfd_faulted (s : State) : (setOvfd s).faulted = true := rfl

@[simp] theorem setIll_eb (s : State) : (setIll s).eb = s.eb := rfl
@[simp] theorem setIll_db (s : State) : (setIll s).db = s.db := rfl
@[simp] theorem setIll_flags (s : State) : (setIll s).flags = ⟨s.flags.ovfb, s.flags.ovfd, true⟩ := rfl
@[simp] theorem setIll_rq (s : State) : (setIll s).rq = s.rq := rfl
@[simp] theorem setIll_params (s : State) : (setIll s).params = s.params := rfl
@[simp] theorem setIll_input (s : State) : (setIll s).input = s.input := rfl
@[simp] theorem setIll_delivered (s : State) : (setIll s).delivered = s.delivered := rfl
@[simp] theorem setIll_faulted (s : State) : (setIll s).faulted = true := rfl

@[simp] theorem emptyEncodeBuffer_eb (s : State) : (emptyEncodeBuffer s).eb = [] := rfl
@[simp] theorem emptyEncodeBuffer_db (s : State) : (emptyEncodeBuffer s).db = s.db := rfl
@[simp] theorem emptyEncodeBuffer_flags (s : State) : (emptyEncodeBuffer s).flags = ⟨false, s.flags.ovfd, s.flags.ill⟩ := rfl
@[simp] theorem emptyEncodeBuffer_rq (s : State) : (emptyEncodeBuffer s).rq = s.rq := rfl
@[simp] theorem emptyEncodeBuffer_params (s : State) : (emptyEncodeBuffer s).params = s.params := rfl
@[simp] theorem emptyEncodeBuffer_input (s : State) : (emptyEncodeBuffer s).input = s.input := rfl
@[simp] theorem emptyEncodeBuffer_delivered (s : State) : (emptyEncodeBuffer s).delivered = s.delivered := rfl
@[simp] theorem emptyEncodeBuffer_faulted (s : State) : (emptyEncodeBuffer s).faulted = s.faulted := rfl

@[simp] theorem emptyDecodeBuffer_eb (s : State) : (emptyDecodeBuffer s).eb = s.eb := rfl
@[simp] theorem emptyDecodeBuffer_db (s : State) : (emptyDecodeBuffer s).db = [] := rfl
@[simp] theorem emptyDecodeBuffer_flags (s : State) : (emptyDecodeBuffer s).flags = ⟨s.flags.ovfb, false, s.flags.ill⟩ := rfl
@[simp] theorem emptyDecodeBuffer_rq (s : State) : (emptyDecodeBuffer s).rq = s.rq := rfl
@[simp] theorem emptyDecodeBuffer_params (s : State) : (emptyDecodeBuffer s).params = s.params := rfl
@[simp] theorem emptyDecodeBuffer_input (s : State) : (emptyDecodeBuffer s).input = s.input := rfl
@[simp] theorem emptyDecodeBuffer_delivered (s : State) : (emptyDecodeBuffer s).delivered = s.delivered := rfl
@[simp] theorem emptyDecodeBuffer_faulted (s : State) : (emptyDecodeBuffer s).faulted = s.faulted := rfl

@[simp] theorem clearIll_eb (s : State) : (clearIll s).eb = s.eb := rfl
@[simp] theorem clearIll_db (s : State) : (clearIll s).db = s.db := rfl
@[simp] theorem clearIll_flags (s : State) : (clearIll s).flags = ⟨s.flags.ovfb, s.flags.ovfd, false⟩ := rfl
@[simp] theorem clearIll_rq (s : State) : (clearIll s).rq = s.rq := rfl
@[simp] theorem clearIll_params (s : State) : (clearIll s).params = s.params := rfl
@[simp] theorem clearIll_input (s : State) : (clearIll s).input = s.input := rfl
@[simp] theorem clearIll_delivered (s : State) : (clearIll s).delivered = s.delivered := rfl
@[simp] theorem clearIll_faulted (s : State) : (clearIll s).faulted = s.faulted := rfl

@[simp] theorem resetBlock_eb (s : State) : (resetBlock s).eb = [] := rfl
@[simp] theorem resetBlock_db (s : State) : (resetBlock s).db = [] := rfl
@[simp] theorem resetBlock_flags (s : State) : (resetBlock s).flags = ⟨false, false, false⟩ := rfl
@[simp] theorem resetBlock_rq (s : State) : (resetBlock s).rq = [] := rfl
@[simp] theorem resetBlock_params (s : State) : (resetBlock s).params = s.params := rfl
@[simp] theorem resetBlock_input (s : State) : (resetBlock s).input = s.input := rfl
@[simp] theorem resetBlock_delivered (s : State) : (resetBlock s).delivered = [] := rfl
@[simp] theorem resetBlock_faulted (s : State) : (resetBlock s).faulted = false := rfl

@[simp] theorem resetWith_params (p : Params) : (State.resetWith p).params = p := rfl

@[simp] theorem withFetchWord_eb (s : State) (nbits w : Nat) : (s.withFetchWord nbits w).eb = s.eb := rfl
@[simp] theorem withFetchWord_db (s : State) (nbits w : Nat) : (s.withFetchWord nbits w).db = s.db := rfl
@[simp] theorem withFetchWord_flags (s : State) (nbits w : Nat) : (s.withFetchWord nbits w).flags = s.flags := rfl
@[simp] theorem withFetchWord_rq (s : State) (nbits w : Nat) : (s.withFetchWord nbits w).rq = s.rq := rfl
@[simp] theorem withFetchWord_params (s : State) (nbits w : Nat) : (s.withFetchWord nbits w).params = s.params := rfl
@[simp] theorem withFetchWord_delivered (s : State) (nbits w : Nat) : (s.withFetchWord nbits w).delivered = s.delivered := rfl
@[simp] theorem withFetchWord_faulted (s : State) (nbits w : Nat) : (s.withFetchWord nbits w).faulted = s.faulted := rfl
@[simp] theorem withFetchWord_input (s : State) (nbits w : Nat) :
    (s.withFetchWord nbits w).input = .command (BitVec.ofNat 68 (w % 2 ^ nbits)) :: s.input := rfl

@[simp] theorem takeResponse_eb (s : State) : (takeResponse s).eb = s.eb := by
  unfold takeResponse; split <;> rfl
@[simp] theorem takeResponse_db (s : State) : (takeResponse s).db = s.db := by
  unfold takeResponse; split <;> rfl
@[simp] theorem takeResponse_flags (s : State) : (takeResponse s).flags = s.flags := by
  unfold takeResponse; split <;> rfl
@[simp] theorem takeResponse_params (s : State) : (takeResponse s).params = s.params := by
  unfold takeResponse; split <;> rfl
@[simp] theorem takeResponse_input (s : State) : (takeResponse s).input = s.input := by
  unfold takeResponse; split <;> rfl
@[simp] theorem takeResponse_faulted (s : State) : (takeResponse s).faulted = s.faulted := by
  unfold takeResponse; split <;> rfl

/-- Taking a response removes the head of the queue. -/
@[simp] theorem takeResponse_rq (s : State) : (takeResponse s).rq = s.rq.tail := by
  unfold takeResponse; split <;> simp_all

/-- Taking a response delivers the head of the queue, if there is one. -/
@[simp] theorem takeResponse_delivered (s : State) : (takeResponse s).delivered = s.delivered ++ s.rq.take 1 := by
  unfold takeResponse; split <;> simp_all

/-- Emitting in two parts is emitting the whole. -/
theorem emitAll_emitAll (ws vs : List ResponseWord) (s : State) : emitAll vs (emitAll ws s) = emitAll (ws ++ vs) s := by
  simp [emitAll]

/-- Emitting nothing changes nothing. -/
theorem emitAll_nil (s : State) : emitAll [] s = s := by simp [emitAll]

end Sys2Proof.Machine
end

