-- ==== Sys2Proof/Laws/Moves.lean ====
section
/-! SUPPORT. Sequences of moves and of commands: what running in two parts gives, and what the buffer operations do in each
of their cases. -/

namespace Sys2Proof.Machine

open Host (Outcome)

theorem andThen_eq_next {σ τ : Type} {o : Outcome σ Fault Refusal} {f : σ → Outcome τ Fault Refusal} {t : τ} :
    andThen o f = .next t ↔ ∃ u, o = .next u ∧ f u = .next t := by
  cases o <;> simp [andThen]

@[simp] theorem next_andThen {σ τ : Type} (s : σ) (f : σ → Outcome τ Fault Refusal) : andThen (.next s) f = f s := rfl

@[simp] theorem andThen_next {σ : Type} (o : Outcome σ Fault Refusal) : andThen o .next = o := by cases o <;> rfl

theorem runMoves_append (ms ns : List HostMove) (s : State) :
    runMoves (ms ++ ns) s = andThen (runMoves ms s) (runMoves ns) := by
  induction ms generalizing s with
  | nil => rfl
  | cons m ms ih =>
    simp only [List.cons_append, runMoves]
    cases move m s <;> simp [andThen, ih]

theorem execAll_append (is js : List Instr) (s : State) :
    execAll (is ++ js) s = andThen (execAll is s) (execAll js) := by
  induction is generalizing s with
  | nil => rfl
  | cons i is ih =>
    simp only [List.cons_append, execAll]
    cases exec i s <;> simp [andThen, ih]

/-- PUTB with room in the buffer. -/
theorem execPutb_of_lt (arg : Arg) (s : State) (h : s.eb.length < s.params.capB) :
    execPutb arg s = .next { s with eb := s.eb ++ [argByte arg] } := if_pos h

/-- PUTB on a full buffer. -/
theorem execPutb_of_full (arg : Arg) (s : State) (h : s.params.capB ≤ s.eb.length) :
    execPutb arg s = .next (setOvfb s) := if_neg (Nat.not_lt.mpr h)

/-- PUTS of an invalid symbol. -/
theorem execPuts_of_invalid (arg : Arg) (s : State) (h : valOf (argSymbol arg) = none) : execPuts arg s = .next s := by
  simp [execPuts, h]

/-- PUTS of a valid symbol with room in the buffer. -/
theorem execPuts_of_lt (arg : Arg) (s : State) (v : Digit) (hv : valOf (argSymbol arg) = some v)
    (h : s.db.length < s.params.capD) : execPuts arg s = .next { s with db := s.db ++ [v] } := by
  simp [execPuts, hv, h]

/-- PUTS of a valid symbol on a full buffer. -/
theorem execPuts_of_full (arg : Arg) (s : State) (v : Digit) (hv : valOf (argSymbol arg) = some v)
    (h : s.params.capD ≤ s.db.length) : execPuts arg s = .next (setOvfd s) := by
  simp [execPuts, hv, Nat.not_lt.mpr h]

end Sys2Proof.Machine
end

