-- ==== Sys2Proof/Laws/Words.lean ====
section
/-! SUPPORT. The fields of the response words that the three constructors build (R44), and of a command word (R45). -/

namespace Sys2Proof.Machine

/-- The upper part of a concatenation, by any position above the cut. -/
theorem extractLsb'_append_high {n m : Nat} (x : BitVec n) (y : BitVec m) (start len : Nat) (h : m ≤ start) :
    (x ++ y).extractLsb' start len = x.extractLsb' (start - m) len := by
  ext i hi
  simp only [BitVec.getElem_extractLsb', BitVec.getLsbD_append]
  rw [if_neg (by omega)]
  congr 1; omega

/-- The lower part of a concatenation, by any range below the cut. -/
theorem extractLsb'_append_low {n m : Nat} (x : BitVec n) (y : BitVec m) (start len : Nat) (h : start + len ≤ m) :
    (x ++ y).extractLsb' start len = y.extractLsb' start len := by
  ext i hi
  simp only [BitVec.getElem_extractLsb', BitVec.getLsbD_append]
  rw [if_pos (by omega)]

variable (op : Opcode) (kind : BitVec 2) (ok rsv : Bool) (cnt : BitVec 4) (data : Data)

/-- A response word with all of its fields as given (R44). -/
def wordOf : ResponseWord := op ++ kind ++ BitVec.ofBool ok ++ BitVec.ofBool rsv ++ cnt ++ data

theorem resultWord_eq : resultWord op ok cnt data = wordOf op 0 ok false cnt data := rfl
theorem dataWord_eq : dataWord op data = wordOf op 1 true false 0 data := rfl
theorem doneWord_eq : doneWord op ok cnt data = wordOf op 2 ok false cnt data := rfl

/-- The 12 bits of a response word above its data (R44). -/
def headOf : BitVec 12 := op ++ kind ++ BitVec.ofBool ok ++ BitVec.ofBool rsv ++ cnt

theorem wordOf_high (start len : Nat) (h : 64 ≤ start) :
    (wordOf op kind ok rsv cnt data).extractLsb' start len = (headOf op kind ok rsv cnt).extractLsb' (start - 64) len :=
  extractLsb'_append_high (headOf op kind ok rsv cnt) data start len h

@[simp] theorem rspData_wordOf : rspData (wordOf op kind ok rsv cnt data) = data :=
  (extractLsb'_append_low (headOf op kind ok rsv cnt) data 0 64 (by decide)).trans BitVec.extractLsb'_eq_self

/-- The fields of the upper 12 bits: finitely many cases. -/
theorem headOf_fields :
    (headOf op kind ok rsv cnt).extractLsb' 8 4 = op ∧ (headOf op kind ok rsv cnt).extractLsb' 6 2 = kind ∧
    (headOf op kind ok rsv cnt).extractLsb' 5 1 = BitVec.ofBool ok ∧
    (headOf op kind ok rsv cnt).extractLsb' 4 1 = BitVec.ofBool rsv ∧
    (headOf op kind ok rsv cnt).extractLsb' 0 4 = cnt := by
  revert op kind ok rsv cnt; decide +kernel

@[simp] theorem rspOp_wordOf : rspOp (wordOf op kind ok rsv cnt data) = op :=
  (wordOf_high op kind ok rsv cnt data 72 4 (by decide)).trans (headOf_fields op kind ok rsv cnt).1

@[simp] theorem rspKind_wordOf : rspKind (wordOf op kind ok rsv cnt data) = kind :=
  (wordOf_high op kind ok rsv cnt data 70 2 (by decide)).trans (headOf_fields op kind ok rsv cnt).2.1

@[simp] theorem rspCnt_wordOf : rspCnt (wordOf op kind ok rsv cnt data) = cnt :=
  (wordOf_high op kind ok rsv cnt data 64 4 (by decide)).trans (headOf_fields op kind ok rsv cnt).2.2.2.2

theorem getLsbD_of_extract {n : Nat} {x : BitVec n} {i : Nat} {b : Bool} (h : x.extractLsb' i 1 = BitVec.ofBool b) :
    x.getLsbD i = b := by
  have := congrArg (·.getLsbD 0) h
  simpa using this

@[simp] theorem rspOk_wordOf : rspOk (wordOf op kind ok rsv cnt data) = ok :=
  getLsbD_of_extract ((wordOf_high op kind ok rsv cnt data 69 1 (by decide)).trans (headOf_fields op kind ok rsv cnt).2.2.1)

@[simp] theorem rspReserved_wordOf : rspReserved (wordOf op kind ok rsv cnt data) = rsv :=
  getLsbD_of_extract
    ((wordOf_high op kind ok rsv cnt data 68 1 (by decide)).trans (headOf_fields op kind ok rsv cnt).2.2.2.1)

end Sys2Proof.Machine
end

