-- ==== Sys2Proof/Laws/Ops.lean ====
section
/-! SUPPORT. What the chunk engine and the message coders give, in numbers and lengths. -/

namespace Sys2Proof.Machine

@[simp] theorem length_encChunk (n : Chunk) : (encChunk n).length = 8 := by simp [encChunk, length_splitLanes]

/-- The values of the symbols of a chunk are its 5-bit lanes. -/
theorem filterMap_valOf_encChunk (n : Chunk) : (encChunk n).filterMap valOf = splitLanes 5 8 n :=
  filterMap_valOf_map_canonOf _

/-- At most 8 digits side by side fit the chunk. -/
theorem decGroupCnt_toNat (g : List Symbol) (h : g.length ≤ 8) :
    (decGroupCnt g).1.toNat = laneNumber (g.filterMap valOf) := by
  refine joinLanes_toNat _ ?_
  have := List.length_filterMap_le valOf g
  omega

theorem length_encodeBeats (b : List Byte) : (encodeBeats b).length = (b.length + padB b.length) / 5 := by
  simp [encodeBeats, length_groupsOf]

theorem length_decodeBeats (d : List Digit) : (decodeBeats d).length = (d.length + padD d.length) / 8 := by
  simp [decodeBeats, length_groupsOf]

theorem length_codedMessage (op : Opcode) (pad : Nat) (beats : List Data) :
    (codedMessage op pad beats).length = beats.length + 1 := by simp [codedMessage]

theorem length_refusedMessage (op : Opcode) : (refusedMessage op).length = 1 := rfl

end Sys2Proof.Machine
end

