-- ==== Sys2Proof/Laws/PerInstr.lean ====
section
/-! SUPPORT. A statement about every command as syntax, one lemma per constructor: the opcode bits of its word are the
row's `match` in spec/opcode_table.json under the table's mask `0xF0000000000000000`, and the other bits are its
argument. -/

namespace Sys2Proof.Laws

/-- The opcode bits of the word of `i` are those of the row `row`, and the rest is the argument of `i`. -/
def OpcodeRow.Row (i : Instr) (row : CommandWord) : Prop :=
  encode i &&& 0xF0000000000000000#68 = row ∧ argField (encode i) = i.arg

/-- The row of a command: its opcode above 64 zero bits. -/
def OpcodeRow.Statement (i : Instr) : Prop := OpcodeRow.Row i (i.opcode ++ 0#64)

namespace OpcodeRow

theorem mask_append (op : Opcode) (a : Arg) : (op ++ a) &&& 0xF0000000000000000#68 = op ++ 0#64 := by
  have h : 0xF0000000000000000#68 = (0xF#4 ++ 0#64 : BitVec 68) := by decide
  rw [h, BitVec.and_append, BitVec.and_zero, show (0xF#4) = BitVec.allOnes 4 from rfl, BitVec.and_allOnes]

theorem arg_append (op : Opcode) (a : Arg) : argField (op ++ a) = a :=
  (Machine.extractLsb'_append_low op a 0 64 (by decide)).trans BitVec.extractLsb'_eq_self

theorem op_append (op : Opcode) (a : Arg) : opField (op ++ a) = op :=
  (Machine.extractLsb'_append_high op a 64 4 (by decide)).trans BitVec.extractLsb'_eq_self

/-- The shape of every lemma below. -/
theorem of_fields (i : Instr) : Statement i := ⟨mask_append _ _, arg_append _ _⟩

theorem nop (a : Arg) : Statement (.nop a) := of_fields _
theorem encd (a : Arg) : Statement (.encd a) := of_fields _
theorem decd (a : Arg) : Statement (.decd a) := of_fields _
theorem dset (a : Arg) : Statement (.dset a) := of_fields _
theorem encc (a : Arg) : Statement (.encc a) := of_fields _
theorem decc (a : Arg) : Statement (.decc a) := of_fields _
theorem putb (a : Arg) : Statement (.putb a) := of_fields _
theorem endb (a : Arg) : Statement (.endb a) := of_fields _
theorem puts (a : Arg) : Statement (.puts a) := of_fields _
theorem ends (a : Arg) : Statement (.ends a) := of_fields _
theorem stat (a : Arg) : Statement (.stat a) := of_fields _
theorem abort (a : Arg) : Statement (.abort a) := of_fields _
theorem reservedC (a : Arg) : Statement (.reservedC a) := of_fields _
theorem reservedD (a : Arg) : Statement (.reservedD a) := of_fields _
theorem reservedE (a : Arg) : Statement (.reservedE a) := of_fields _
theorem reservedF (a : Arg) : Statement (.reservedF a) := of_fields _

end OpcodeRow

end Sys2Proof.Laws
end

