-- ==== Sys2Proof/Laws/Ports.lean ====
section
/-! SUPPORT. What one clock edge can do to the block and its channels, and what a reset edge, a presented command and a
presented response leave for the next edge. -/

namespace Sys2Proof.Machine

/-- Whatever a command does, it appends to the response queue and leaves the delivered words, the coming moves and the
capacities alone. -/
theorem exec_appends {i : Instr} {s t : State} (h : exec i s = .next t) :
    ∃ ws, t.rq = s.rq ++ ws ∧ t.delivered = s.delivered ∧ t.input = s.input ∧ t.params = s.params := by
  have same : ∀ {u : State}, Host.Outcome.next (φ := Fault) (ρ := Refusal) s = .next u →
      ∃ ws, u.rq = s.rq ++ ws ∧ u.delivered = s.delivered ∧ u.input = s.input ∧ u.params = s.params := by
    rintro u ⟨⟩
    exact ⟨[], by simp⟩
  cases i with
  | nop => exact same h
  | encd | dset | encc | decc | endb | ends | stat | abort | reservedC | reservedD | reservedE | reservedF =>
    cases h
    exact ⟨_, by simp [reservedCommand]; rfl⟩
  | decd =>
    simp only [exec, execDecd] at h
    split at h <;> cases h <;> exact ⟨_, rfl, rfl, rfl, rfl⟩
  | putb =>
    simp only [exec, execPutb] at h
    split at h <;> cases h <;> exact ⟨[], by simp⟩
  | puts =>
    simp only [exec, execPuts] at h
    split at h
    · exact same h
    · split at h <;> cases h <;> exact ⟨[], by simp⟩

/-- The channels after an edge. -/
theorem clockEdge_channels {t : EdgeTiming} {e : EdgeIn} {p q : Ports} (h : clockEdge t e p = .next q) :
    q.pending = (if !e.rst && e.cmdValid && !accepts t e p then some e.cmdWord else none) ∧
    q.raised = (!e.rst && rspValid t p && !delivers t e p) ∧ q.inReset = e.rst := by
  obtain ⟨s, -, h⟩ := andThen_eq_next.mp h
  cases h
  exact ⟨rfl, rfl, rfl⟩

/-- The block after a reset edge. -/
theorem clockEdge_reset (t : EdgeTiming) (e : EdgeIn) (p : Ports) (h : e.rst = true) :
    clockEdge t e p = .next ⟨resetBlock p.block, none, false, true⟩ := by
  simp [clockEdge, edgeMoves, runMoves, move, andThen, h]

/-- The block after any other edge is what the accepted command makes of it, if one is accepted, after the delivery, if
there is one. -/
theorem clockEdge_block {t : EdgeTiming} {e : EdgeIn} {p q : Ports} (h : clockEdge t e p = .next q) (hr : e.rst = false) :
    let s := if delivers t e p then takeResponse p.block else p.block
    (accepts t e p = true → exec (decode e.cmdWord) s = .next q.block) ∧ (accepts t e p = false → q.block = s) := by
  obtain ⟨s, hs, h⟩ := andThen_eq_next.mp h
  cases h
  cases hd : delivers t e p <;> cases ha : accepts t e p <;>
    simpa [edgeMoves, hr, hd, ha, runMoves, move, eq_comm] using hs

/-- The response queue after an edge without reset: a delivery moves the head to the delivered words, and only an accepted
command appends. -/
theorem clockEdge_queue {t : EdgeTiming} {e : EdgeIn} {p q : Ports} (h : clockEdge t e p = .next q) (hr : e.rst = false) :
    ∃ ws, q.block.rq = p.block.rq.drop (delivers t e p).toNat ++ ws ∧
      q.block.delivered = p.block.delivered ++ p.block.rq.take (delivers t e p).toNat ∧
      (accepts t e p = false → ws = []) := by
  have hb := clockEdge_block h hr
  cases ha : accepts t e p with
  | false => exact ⟨[], by rw [hb.2 ha]; cases delivers t e p <;> simp⟩
  | true =>
    obtain ⟨ws, hq, hd, -⟩ := exec_appends (hb.1 ha)
    exact ⟨ws, by rw [hq, hd]; cases delivers t e p <;> simp⟩

/-- A response presented and not delivered stays raised. -/
theorem clockEdge_keeps_raised {t : EdgeTiming} {e : EdgeIn} {p q : Ports} (h : clockEdge t e p = .next q)
    (hr : e.rst = false) (hv : rspValid t p = true) (hd : delivers t e p = false) : q.raised = true := by
  simp [(clockEdge_channels h).2.1, hr, hv, hd]

/-- A command presented and not accepted is pending. -/
theorem clockEdge_keeps_pending {t : EdgeTiming} {e : EdgeIn} {p q : Ports} (h : clockEdge t e p = .next q)
    (hr : e.rst = false) (hv : e.cmdValid = true) (ha : accepts t e p = false) : q.pending = some e.cmdWord := by
  simp [(clockEdge_channels h).1, hr, hv, ha]

/-- What a host that keeps its duty does at an edge without reset while a command is pending. -/
theorem hostHolds_of_pending {e : EdgeIn} {p : Ports} {w : CommandWord} (h : hostHolds e p = true) (hr : e.rst = false)
    (hp : p.pending = some w) : e.cmdValid = true ∧ e.cmdWord = w := by simpa [hostHolds, hr, hp] using h

/-- The response queue of a run over one edge without reset. -/
theorem PortRun.queue_step (r : PortRun) (n : Nat) (hr : (r.input n).rst = false) :
    ∃ ws, (r.ports (n + 1)).block.rq = (r.ports n).block.rq.drop (r.deliversAt n).toNat ++ ws ∧
      (r.ports (n + 1)).block.delivered =
        (r.ports n).block.delivered ++ (r.ports n).block.rq.take (r.deliversAt n).toNat ∧
      (r.acceptsAt n = false → ws = []) := clockEdge_queue (r.edge n) hr

end Sys2Proof.Machine
end

