-- ==== Sys2Proof/Tests/Slice0.lean ====
section
/-! SUPPORT. Tests: the well-formedness smoke, the decoding of words written out by the spec, at most two steps per command
with the results spec/95_test_vectors.md gives, vectors of the reference functions, and a witness for the hypotheses of
every statement that has some. -/

namespace Sys2Proof.Tests

open Sys2Proof Sys2Proof.Machine Host

/-! ### Well-formedness smoke: for each check a term that it refuses -/

theorem test_wf_refuses_reserved_bit : rspWellFormed 0x1300000000000000056 = false := by decide
theorem test_wf_refuses_kind_3 : rspWellFormed 0x7E00000000000000000 = false := by decide
theorem test_wf_refuses_result_of_nop : rspWellFormed 0x0200000000000000000 = false := by decide
theorem test_wf_refuses_result_of_putb : rspWellFormed 0x6200000000000000000 = false := by decide
theorem test_wf_refuses_result_of_endb : rspWellFormed 0x7200000000000000000 = false := by decide
theorem test_wf_refuses_result_of_puts : rspWellFormed 0x8200000000000000000 = false := by decide
theorem test_wf_refuses_result_of_ends : rspWellFormed 0x9200000000000000000 = false := by decide
theorem test_wf_refuses_stat_not_ok : rspWellFormed 0xA000000000000000000 = false := by decide
theorem test_wf_refuses_reserved_ok : rspWellFormed 0xC200000000000000000 = false := by decide
theorem test_wf_refuses_data_of_encc : rspWellFormed 0x4603030303030303030 = false := by decide
theorem test_wf_refuses_data_not_ok : rspWellFormed 0x7403030303030303030 = false := by decide
theorem test_wf_refuses_data_with_cnt : rspWellFormed 0x7613030303030303030 = false := by decide
theorem test_wf_refuses_done_of_decc : rspWellFormed 0x5A00000000000000000 = false := by decide
theorem test_wf_accepts_spec_words : (rspWellFormed 0x42039314A4E51563346 && rspWellFormed 0x50700000002432B6363 &&
    rspWellFormed 0x7605A5A5A5A5A5A5A5A && rspWellFormed 0x9800000000000000000) = true := by decide
theorem test_reserved_is_no_operation : (Instr.reservedC 0).isOperation = false ∧ (Instr.abort 0).isOperation = true := by
  decide
theorem test_unread_bits_set : (Instr.putb 0xFFFFFFFFFFFFFF48).unreadBitsClear = false ∧
    (Instr.encc 0xFFFFFF48656C6C6F).unreadBitsClear = false ∧ (Instr.endb 1).unreadBitsClear = false := by decide

/-! ### Decoding: words of spec/95_test_vectors.md, one per command -/

theorem test_decode_nop : decode 0x00000000000000000 = .nop 0 := by decide
theorem test_decode_encd : decode 0x1FFFFFFFFFFFFFFFF = .encd 0xFFFFFFFFFFFFFFFF := by decide
theorem test_decode_decd : decode 0x2DEADBEEF00000075 = .decd 0xDEADBEEF00000075 := by decide
theorem test_decode_dset : decode 0x3000000000000001B = .dset 27 := by decide
theorem test_decode_encc : decode 0x4FFFFFF48656C6C6F = .encc 0xFFFFFF48656C6C6F := by decide
theorem test_decode_decc : decode 0x539314A4E51563346 = .decc 0x39314A4E51563346 := by decide
theorem test_decode_putb : decode 0x60000000000000048 = .putb 0x48 := by decide
theorem test_decode_endb : decode 0x7FFFFFFFFFFFFFFFF = .endb 0xFFFFFFFFFFFFFFFF := by decide
theorem test_decode_puts : decode 0x8000000000000004A = .puts 0x4A := by decide
theorem test_decode_ends : decode 0x90000000000000000 = .ends 0 := by decide
theorem test_decode_stat : decode 0xA0000000000000000 = .stat 0 := by decide
theorem test_decode_abort : decode 0xB0000000000000000 = .abort 0 := by decide
theorem test_decode_reservedC : decode 0xC0000000000000000 = .reservedC 0 := by decide
theorem test_decode_reservedD : decode 0xD0000000000000000 = .reservedD 0 := by decide
theorem test_decode_reservedE : decode 0xE0000000000000000 = .reservedE 0 := by decide
theorem test_decode_reservedF : decode 0xF123456789ABCDEF0 = .reservedF 0x123456789ABCDEF0 := by decide
theorem test_decode_refuses_69_bits : decodeTableWord 72 0x100000000000000000 = none := by decide

/-! ### One step per test -/

/-- A block with the smallest legal capacities, CAPB = 5 and CAPD = 8, in the reset state. -/
def smallBlock : State := State.resetWith ⟨5, 8, by decide, by decide, by decide, by decide⟩

/-- What `f` reads from the next state. -/
def after {σ α : Type} (o : Outcome σ Fault Refusal) (f : σ → α) : Option α :=
  match o with
  | .next t => some (f t)
  | .fault _ => none
  | .refused _ => none

-- V-K1
theorem test_nop : after (exec (.nop 7) smallBlock) id = some smallBlock := by decide
-- V-E27, V-E34
theorem test_encd_27 : after (exec (.encd 27) smallBlock) State.rq = some [0x1200000000000000056] := by decide
theorem test_encd_upper_bits : after (exec (.encd 0x100000005) smallBlock) State.rq = some [0x1000000000000000000] := by
  decide
-- V-D40, V-D27
theorem test_decd_u : after (exec (.decd 0xDEADBEEF00000075) smallBlock) State.rq = some [0x220000000000000001B] := by
  decide
theorem test_decd_dash : after (exec (.decd 0x2D) smallBlock) State.rq = some [0x2000000000000000000] := by decide
-- V-T27, V-T32
theorem test_dset_27 : after (exec (.dset 27) smallBlock) State.rq = some [0x3240000000075557656] := by decide
theorem test_dset_32 : after (exec (.dset 32) smallBlock) State.rq = some [0x3000000000000000000] := by decide
-- V-C14, V-C13
theorem test_encc_hello : after (exec (.encc 0xFFFFFF48656C6C6F) smallBlock) State.rq = some [0x42039314A4E51563346] := by
  decide
theorem test_encc_straddle : after (exec (.encc 0x123456789A) smallBlock) State.rq = some [0x4203238543543593454] := by
  decide
-- V-G14, V-G20
theorem test_decc_junk : after (exec (.decc 0x39314A4E2D515633) smallBlock) State.rq = some [0x50700000002432B6363] := by
  decide
theorem test_decc_aliases : after (exec (.decc 0x5575567635537349) smallBlock) State.rq = some [0x528000000DEF7B294A1] := by
  decide
-- V-K7, V-K9 (sixth byte)
theorem test_putb_upper_bits : after (exec (.putb 0xFFFFFFFFFFFFFF48) smallBlock) State.eb = some [0x48] := by decide
theorem test_putb_full : after (exec (.putb 6) { smallBlock with eb := [1, 2, 3, 4, 5] })
    (fun t => (t.eb, t.flags.ovfb)) = some ([1, 2, 3, 4, 5], true) := by decide
-- V-M4, V-K9 (ENDB)
theorem test_endb_hello : after (exec (.endb 0) { smallBlock with eb := [0x48, 0x65, 0x6C, 0x6C, 0x6F, 0x21] }) State.rq =
    some [0x7603030303030303238, 0x760434D4E3651565231, 0x7A40000000000000002] := by decide
theorem test_endb_refuses : after (exec (.endb 0)
    { smallBlock with eb := [1, 2, 3, 4, 5], flags := ⟨true, false, false⟩ }) (fun t => (t.rq, t.eb, t.flags.ovfb)) =
    some ([0x7800000000000000000], [], false) := by decide
-- R77's example, V-K11 (the dash on a full buffer)
theorem test_puts_J : after (exec (.puts 0x4A) smallBlock) State.db = some [18] := by decide
theorem test_puts_dash_on_full : after (exec (.puts 0x2D) { smallBlock with db := List.replicate 8 31 })
    (fun t => (t.db, t.flags.ovfd)) = some (List.replicate 8 31, false) := by decide
-- V-N11, V-K11 (ENDS)
theorem test_ends_nine : after (exec (.ends 0) { smallBlock with db := List.replicate 9 31 }) State.rq =
    some [0x960000000000000001F, 0x960000000FFFFFFFFFF, 0x9A70000000000000002] := by decide
theorem test_ends_refuses : after (exec (.ends 0)
    { smallBlock with db := List.replicate 8 31, flags := ⟨false, true, false⟩ }) (fun t => (t.rq, t.db, t.flags.ovfd)) =
    some ([0x9800000000000000000], [], false) := by decide
-- P6 step 7, V-K11
theorem test_stat_ill : after (exec (.stat 0)
    { smallBlock with eb := [0x48, 0x69], db := [18, 3], flags := ⟨false, false, true⟩ }) State.rq =
    some [0xA200004000002000002] := by decide
theorem test_stat_ovfd : after (exec (.stat 0)
    { smallBlock with db := List.replicate 8 31, flags := ⟨false, true, false⟩ }) State.rq =
    some [0xA200002000008000000] := by decide
-- P6 step 11
theorem test_abort : after (exec (.abort 0)
    { smallBlock with eb := [1], db := [2], flags := ⟨true, true, true⟩, rq := [0xC000000000000000000] })
    (fun t => (t.eb, t.db, t.flags, t.rq)) =
    some ([], [], ⟨false, false, false⟩, [0xC000000000000000000, 0xB200000000000000000]) := by decide
-- V-K5, V-K6
theorem test_reservedC : after (exec (.reservedC 0) smallBlock) (fun t => (t.rq, t.flags)) =
    some ([0xC000000000000000000], ⟨false, false, true⟩) := by decide
theorem test_reservedD : after (exec (.reservedD 0) smallBlock) State.rq = some [0xD000000000000000000] := by decide
theorem test_reservedE : after (exec (.reservedE 0) smallBlock) State.rq = some [0xE000000000000000000] := by decide
theorem test_reservedF : after (exec (.reservedF 0x123456789ABCDEF0) smallBlock) (fun t => (t.rq, statusWord t)) =
    some ([0xF000000000000000000], 0x0004000000000000) := by decide

/-! ### Every opcode runs as the first command after reset, whatever the capacities -/

theorem test_first_command_runs : ∀ op ∈ List.range 16,
    (after (step (State.reset.withFetchWord 72 (op * 2 ^ 64 + 0x41))) State.input) = some [] := by decide

/-! ### The digit table and the reference functions -/

/-- A text as symbol codes. -/
def codes (s : List Char) : List Symbol := s.filterMap symbolOf

theorem test_codes_of_table : digitTable.flatten = codes
    (['0', 'O', 'o', '1', 'I', 'i', '2', '3', '4', '5', 'S', 's', '6', '7', '8', '9', 'A', 'a', 'B', 'b', 'C', 'c'] ++
     ['D', 'd', 'E', 'e', 'F', 'f', 'G', 'g', 'H', 'h', 'J', 'j', 'K', 'k', 'L', 'l', 'M', 'm', 'N', 'n', 'P', 'p'] ++
     ['Q', 'q', 'R', 'r', 'T', 't', 'V', 'v', 'U', 'u', 'W', 'w', 'X', 'x', 'Y', 'y', 'Z', 'z']) := by decide
theorem test_symbolOf_refuses_non_ascii : symbolOf 'é' = none := by decide
-- V-I1, V-I9, V-I14, V-I17
theorem test_intEnc_zero : intEnc 0 = codes ['0'] := by decide
theorem test_intEnc_negative : intEnc (-32) = codes ['1', '0'] := by decide
theorem test_intEnc_long : intEnc 123456789 = codes ['3', 'M', 'P', 'K', '8', 'M'] := by decide
theorem test_intEnc_nine : intEnc (2 ^ 40) = codes ['1', '0', '0', '0', '0', '0', '0', '0', '0'] := by decide +kernel
-- V-J4, V-J8, V-J16
theorem test_intDec_skip : intDec (codes ['1', '-', '2', '-', '3']) = 1091 := by decide
theorem test_intDec_lol : intDec (codes ['l', 'o', 'l']) = 20500 := by decide
theorem test_intDec_junk : intDec (codes ['9', '1', 'J', 'N', '-', 'Q', 'V', '3']) = 9716851555 := by decide
-- V-M2, V-N7
theorem test_encBin_Hi : encBin [0x48, 0x69] = codes ['0', '0', '0', '0', '0', 'J', '3', '9'] := by decide +kernel
theorem test_decBin_J39 : decBin (codes ['J', '-', '3', '9']) = [0, 0, 0, 0x48, 0x69] := by decide
-- V-M1, V-N2
theorem test_empty_messages : encBin [] = [] ∧ decBin (codes ['-', '-']) = [] := by decide
-- R49
theorem test_assemble_encbin : assemble [['E', 'N', 'C', 'B', 'I', 'N', ' ', '7', '2', ',', ' ', '\'', 'i', '\'']] =
    some [0x60000000000000048, 0x60000000000000069, 0x70000000000000000] := by decide
-- P1 (its pseudo-command form, first two bytes), P2 (its dash and its last character)
theorem test_encbinText : encbinText [0x48, 0x6C] =
    ['E', 'N', 'C', 'B', 'I', 'N', ' ', '0', 'x', '4', '8', ',', ' ', '0', 'x', '6', 'C'] := by decide
theorem test_assemble_decbin : assemble [decbinText ['-', 'f']] =
    some [0x8000000000000002D, 0x80000000000000066, 0x90000000000000000] := by decide
theorem test_assemble_cmd : assemble [['.', 'c', 'm', 'd', ' ', '0', 'x', 'F', '1', '2', '3', '4', '5', '6', '7', '8', '9',
    'A', 'B', 'C', 'D', 'E', 'F', '0']] = some [0xF123456789ABCDEF0] := by decide
theorem test_assemble_refuses_short_group : assemble [['D', 'E', 'C', 'C', ' ', '"', 'J', '3', '9', '"']] = none := by
  decide
theorem test_showResponse : showResponse 0x7A30000000000000001 =
    ['0', 'x', '7', 'A', '3', '0', '0', '0', '0', '0', '0', '0', '0', '0', '0', '0', '0', '0', '0', '0', '1'] := by decide

-- R109: a presented word that was not accepted must stay; an accepted one need not
theorem test_hostHolds :
    let e : EdgeIn := ⟨false, true, 0x1000000000000001B, true⟩
    after (clockEdge ⟨false, true⟩ e ⟨smallBlock, none, false, false⟩) (hostHolds ⟨false, true, 0, true⟩) = some false ∧
    after (clockEdge ⟨true, true⟩ e ⟨smallBlock, none, false, false⟩) (hostHolds ⟨false, false, 0, true⟩) = some true := by
  decide

-- R105: while rst stays 1 after a reset edge, cmd_ready is 0 whatever the timing
theorem test_cmd_ready_in_reset :
    after (clockEdge ⟨true, true⟩ ⟨true, true, 0x1000000000000001B, true⟩ ⟨smallBlock, none, false, false⟩)
      (fun q => (cmdReady ⟨true, true⟩ ⟨true, true, 0x1000000000000001B, true⟩ q,
        accepts ⟨true, true⟩ ⟨false, true, 0x1000000000000001B, true⟩ q)) = some (false, true) := by decide

/-! ### Witnesses: for each statement with hypotheses, states and operands that meet them, at the boundaries -/

/-- A full block: CAPB bytes and CAPD digits, both overflow flags and the mark set, one response waiting. -/
def fullBlock : State := { smallBlock with
  eb := [1, 2, 3, 4, 5], db := List.replicate 8 31, flags := ⟨true, true, false⟩, faulted := true,
  rq := [0x1200000000000000056] }

theorem witness_invariant : smallBlock.Inv ∧ fullBlock.Inv := by decide

theorem witness_UnreadArgumentBitsIgnored : (Instr.putb 0x148).opcode = (Instr.putb 0x48).opcode ∧
    (Instr.putb 0x148).arg.toNat % 2 ^ (Instr.putb 0x148).bitsRead =
      (Instr.putb 0x48).arg.toNat % 2 ^ (Instr.putb 0x148).bitsRead := by decide

theorem witness_DigitTableLaws : (0x75 : Symbol) ∈ entryOf 27 ∧ 0x41 ≤ (0x5A : Symbol).toNat ∧
    (0x5A : Symbol).toNat ≤ 0x5A := by decide

theorem witness_in_range : (31 : Arg).toNat ≤ 31 ∧ 31 < (32 : Arg).toNat := by decide

theorem witness_symbol_in_entry : (BitVec.ofNat 8 (0xFFFFFFFFFFFFFF75 : Arg).toNat : Symbol) ∈ entryOf 27 := by decide

theorem witness_symbol_in_no_entry : ∀ v : Digit, (BitVec.ofNat 8 (0x2D : Arg).toNat : Symbol) ∉ entryOf v := by decide

theorem witness_DigitOperationLaws : (0x6F : Symbol) ∈ entryOf 0 ∧
    newResponses (.encd ((5 : Digit).setWidth 64)) smallBlock = newResponses (.encd ((5 : Digit).setWidth 64)) smallBlock :=
  by decide

theorem witness_PureCommands : Instr.decc 5 ∈ [Instr.encd 5, .decd 5, .dset 5, .encc 5, .decc 5] := by decide

theorem witness_NumeralLength : (-32 : Int) ≠ 0 ∧ 1 ≤ 2 ∧ (-32 : Int).natAbs < 32 ^ 2 := by decide

theorem witness_ChunkEngine : ([0x39, 0x69, 0x6A, 0x4E, 0x51, 0x75, 0x33, 0x46] : List Symbol).map valOf =
    [some 9, some 1, some 18, some 22, some 24, some 27, some 3, some 15] := by decide

theorem witness_GroupDecoder : (List.replicate 8 (0x2D : Symbol)).length ≤ 8 := by decide

theorem witness_ChunkRoundTrip : (List.replicate 8 (0x7A : Symbol)).length = 8 ∧
    (∀ c ∈ List.replicate 8 (0x7A : Symbol), isValid c = true) :=
  ⟨by decide, List.all_eq_true.mp (by decide)⟩

theorem witness_MessageRoundTrip : ([1, 2, 3, 4, 5] : List Byte).length % 5 = 0 := by decide

theorem witness_DecBinIgnores :
    (codes ['u', '-', 'O']).filterMap valOf = (codes ['V', '0', '=']).filterMap valOf := by decide

theorem witness_WholeNumberView : ([0] : List Byte) ≠ [] := by decide

theorem witness_EncBinInjective : ([1, 2] : List Byte).length = ([1, 2] : List Byte).length ∧
    encBin [1, 2] = encBin [1, 2] ∧ 3 ≤ padB ([1, 2] : List Byte).length := by decide +kernel

theorem witness_room : ({ smallBlock with eb := [1, 2, 3, 4] } : State).eb.length < smallBlock.params.capB ∧
    ({ smallBlock with db := List.replicate 7 31 } : State).db.length < smallBlock.params.capD := by decide

theorem witness_full : fullBlock.params.capB ≤ fullBlock.eb.length ∧ fullBlock.params.capD ≤ fullBlock.db.length := by
  decide

theorem witness_flags : smallBlock.flags.ovfb = false ∧ smallBlock.flags.ovfd = false ∧ fullBlock.flags.ovfb = true ∧
    fullBlock.flags.ovfd = true := by decide

/-- As many arguments as the buffer holds; for symbols one more that is invalid. -/
theorem witness_pushed : smallBlock.eb = [] ∧ smallBlock.db = [] ∧
    ([1, 2, 3, 4, 5] : List Arg).length ≤ smallBlock.params.capB ∧
    (((List.replicate 8 0x5A ++ [0x2D] : List Arg).map fun a => (BitVec.ofNat 8 a.toNat : Symbol)).filter isValid).length ≤
      smallBlock.params.capD := by decide

/-- One element more than the buffer holds. -/
theorem witness_overlong : smallBlock.params.capB < ([1, 2, 3, 4, 5, 6] : List Arg).length ∧
    smallBlock.params.capD <
      (((List.replicate 9 0x5A : List Arg).map fun a => (BitVec.ofNat 8 a.toNat : Symbol)).filter isValid).length := by
  decide

theorem witness_EmptyMessage : ∀ a ∈ ([0x2D, 0x20, 0, 0x1FF] : List Arg), isValid (BitVec.ofNat 8 a.toNat) = false := by
  have h : ([0x2D, 0x20, 0, 0x1FF] : List Arg).all (fun a => !isValid (BitVec.ofNat 8 a.toNat)) = true := by decide
  simpa only [List.all_eq_true, Bool.not_eq_true'] using h

theorem witness_BlockRoundTrip : ([1, 2, 3, 4, 5] : List Byte).length % 5 = 0 ∧
    ([1, 2, 3, 4, 5] : List Byte).length ≤ smallBlock.params.capB ∧
    8 * (([1, 2, 3, 4, 5] : List Byte).length / 5) ≤ smallBlock.params.capD := by decide

theorem witness_paths : Instr.endb 5 ∈ [Instr.putb 5, .endb 5] ∧ Instr.puts 5 ∈ [Instr.puts 5, .ends 5] := by decide

theorem witness_ReservedOpcodes : (Instr.reservedF 5, (0xF : Opcode)) ∈
    [(Instr.reservedC 5, (0xC : Opcode)), (.reservedD 5, 0xD), (.reservedE 5, 0xE), (.reservedF 5, 0xF)] := by decide

/-- A command that sets OVFB, one that sets OVFD, one that sets ILL. -/
theorem witness_flag_set :
    after (exec (.putb 6) { smallBlock with eb := [1, 2, 3, 4, 5] }) (fun t => t.flags.ovfb) = some true ∧
    after (exec (.puts 0x5A) { smallBlock with db := List.replicate 8 31 }) (fun t => t.flags.ovfd) = some true ∧
    after (exec (.reservedD 0) smallBlock) (fun t => (t.flags.ill, t.faulted)) = some (true, true) := by decide

/-- Commands that clear the flags of a full block; the mark stays. -/
theorem witness_flag_cleared :
    after (exec (.endb 0) fullBlock) (fun t => (t.flags.ovfb, t.faulted)) = some (false, true) ∧
    after (exec (.ends 0) fullBlock) (fun t => t.flags.ovfd) = some false ∧
    after (exec (.abort 0) { fullBlock with flags := ⟨true, true, true⟩ }) (fun t => t.flags.ill) = some false := by decide

theorem witness_FaultMark_moves : (∃ t, move .take fullBlock = .next t) ∧ ∃ t, move .reset fullBlock = .next t :=
  ⟨⟨_, rfl⟩, ⟨_, rfl⟩⟩

theorem witness_FaultMark_free : smallBlock.Inv ∧ smallBlock.faultFree = true := by decide

theorem witness_StepKeepsInvariant : ({ fullBlock with input := [.command 0x70000000000000000] } : State).Inv ∧
    ∃ t, step { fullBlock with input := [.command 0x70000000000000000] } = .next t := ⟨by decide, ⟨_, rfl⟩⟩

theorem witness_StepRunsDecodedCommand :
    ({ smallBlock with input := [.command (encode (.encd 27)), .take] } : State).input =
      .command (encode (.encd 27)) :: [.take] ∧
    decodeTableWord 72 0x1000000000000001B = some (.encd 27) := by decide

theorem witness_StepTakesResetsOrWaits :
    ({ fullBlock with input := [.take, .reset] } : State).input = .take :: [.reset] ∧
    fullBlock.rq = 0x1200000000000000056 :: [] ∧ smallBlock.rq = [] ∧
    ({ fullBlock with input := [.reset] } : State).input = .reset :: [] ∧ smallBlock.input = [] := by decide

theorem witness_CommandsOnlyAppend : ∃ t, exec (.endb 0) fullBlock = .next t := ⟨_, rfl⟩

/-- The same two commands, with a response taken in between and none taken. -/
theorem witness_ResponsesDependOnCommandsAlone :
    let ms : List HostMove := [.command 0x1000000000000001B, .take, .command 0xA0000000000000000]
    let ns : List HostMove := [.command 0x1000000000000001B, .command 0xA0000000000000000]
    .reset ∉ ms ∧ .reset ∉ ns ∧ commandsOf ms = commandsOf ns ∧ (∃ t, runMoves ms smallBlock = .next t) ∧
    ∃ u, runMoves ns smallBlock = .next u := ⟨by decide, by decide, by decide, ⟨_, rfl⟩, ⟨_, rfl⟩⟩

theorem witness_TakingCommutes : fullBlock.rq ≠ [] := by decide

/-- A full block between two edges, its response presented. -/
def fullPorts : Ports := ⟨fullBlock, none, true, false⟩

/-- An edge that accepts and delivers, one that does neither, and one that presents a command in vain. -/
theorem witness_ResponseHeld :
    let both : EdgeIn := ⟨false, true, 0x1000000000000001B, true⟩
    let neither : EdgeIn := ⟨false, false, 0, false⟩
    delivers ⟨true, false⟩ both fullPorts = true ∧ delivers ⟨true, false⟩ neither fullPorts = false ∧
    rspValid ⟨true, false⟩ fullPorts = true ∧ accepts ⟨true, true⟩ neither fullPorts = false ∧
    accepts ⟨false, true⟩ both fullPorts = false ∧ fullPorts.block.rq ≠ [] ∧
    after (clockEdge ⟨false, true⟩ both fullPorts) (hostHolds both) = some true ∧
    after (clockEdge ⟨true, false⟩ both fullPorts) (fun q => (q.block.rq, q.block.delivered)) =
      some ([0x1200000000000000056], [0x1200000000000000056]) := by decide

theorem witness_ResetEdge :
    (⟨true, true, 0x1000000000000001B, true⟩ : EdgeIn).rst = true ∧ Ports.reset.block.rq = [] ∧
    accepts ⟨true, true⟩ ⟨false, false, 0, true⟩ Ports.reset = false ∧
    ∃ q, clockEdge ⟨true, true⟩ ⟨false, false, 0, true⟩ Ports.reset = .next q :=
  ⟨rfl, rfl, rfl, ⟨_, rfl⟩⟩

/-- An endless run: `ENCD 27` is presented for two edges and accepted at the second, its response is delivered at the third,
and the block waits from then on. -/
def endlessRun : PortRun where
  timing n := ⟨n != 0, true⟩
  input n := ⟨false, n ≤ 1, 0x1000000000000001B, true⟩
  ports n := match n with
    | 0 => ⟨smallBlock, none, false, true⟩
    | 1 => ⟨smallBlock, some 0x1000000000000001B, false, false⟩
    | 2 => ⟨{ smallBlock with rq := [0x1200000000000000056] }, none, false, false⟩
    | _ => ⟨{ smallBlock with delivered := [0x1200000000000000056] }, none, false, false⟩
  holds n := match n with
    | 0 => rfl
    | 1 => rfl
    | 2 => rfl
    | _ + 3 => rfl
  edge n := match n with
    | 0 => by rfl
    | 1 => by rfl
    | 2 => by rfl
    | _ + 3 => by rfl

/-- The run is fair, its host takes every response, and a command is accepted and a response delivered in it. -/
theorem witness_Progress : endlessRun.WeaklyFair ∧ endlessRun.HostDrainsFrom 0 ∧
    (endlessRun.input 0).cmdValid = true ∧ endlessRun.acceptsAt 1 = true ∧ endlessRun.deliversAt 2 = true := by
  refine ⟨⟨fun n h => ?_, fun n h => ?_⟩, fun n _ => ⟨rfl, fun h => ⟨n, le_rfl, ?_⟩⟩, rfl, rfl, rfl⟩
  · simpa [endlessRun] using (h (n + 2) (by omega)).2.1
  · exact absurd rfl (h (n + 3) (by omega)).2
  · simp only [PortRun.validAt] at h
    simp only [PortRun.deliversAt, delivers, h]
    rfl

/-- A run that is over while the host still has a move without a command, and one that is not over. -/
theorem witness_runOver : ({ smallBlock with input := [.take] } : State).runOver = true ∧
    ({ smallBlock with input := [.take] } : State).runClean = true ∧
    ({ smallBlock with input := [.command 0] } : State).runOver = false ∧ fullBlock.runOver = false := by decide

theorem witness_AssemblerText : ∀ c ∈ ['9', '1', ';', ' ', '\x7f'], c.toNat < 128 ∧ c ≠ '"' := by simp

theorem witness_overflowed : fullBlock.Inv ∧ fullBlock.flags.ovfb = true ∧ fullBlock.flags.ovfd = true := by decide

end Sys2Proof.Tests
end

section
/-! PROOFS (spec/10_state.md). The digit table by code range, its invariants, and the reset state. -/

namespace Sys2Proof.Machine

/-! ### The digit table -/

/-- The rows of R19 for the codes that are no lower-case letter: the value of a code, absent between the rows. -/
def codeRangeVal (n : Nat) : Option Nat :=
  if n < 0x30 then none
  else if n ≤ 0x39 then some (n - 0x30)
  else if n ≤ 0x40 then none
  else if n ≤ 0x48 then some (n - 0x41 + 10)
  else if n = 0x49 then some 1
  else if n ≤ 0x4E then some (n - 0x4A + 18)
  else if n = 0x4F then some 0
  else if n ≤ 0x52 then some (n - 0x50 + 23)
  else if n = 0x53 then some 5
  else if n = 0x54 then some 26
  else if n = 0x55 then some 27
  else if n ≤ 0x5A then some (n - 0x56 + 27)
  else none

/-- The codes with a row in R19 below the lower-case letters are the digits and the upper-case letters. -/
theorem codeRangeVal_isSome_iff (n : Nat) :
    (codeRangeVal n).isSome = true ↔ (0x30 ≤ n ∧ n ≤ 0x39) ∨ (0x41 ≤ n ∧ n ≤ 0x5A) := by
  fun_cases codeRangeVal n
  all_goals simp only [Option.isSome_some, Option.isSome_none, Bool.false_eq_true, true_iff, false_iff]; omega

/-- The table agrees with R19 on every code; a lower-case letter has the row of its upper case. -/
theorem valOf_toNat (c : Symbol) :
    (valOf c).map BitVec.toNat =
      if 0x61 ≤ c.toNat ∧ c.toNat ≤ 0x7A then codeRangeVal (c.toNat - 0x20) else codeRangeVal c.toNat := by
  revert c; decide +kernel

/-- The valid codes are those of the US-ASCII digits and letters (R20 (a)). -/
theorem isValid_iff (c : Symbol) :
    isValid c = true ↔ (0x30 ≤ c.toNat ∧ c.toNat ≤ 0x39) ∨ (0x41 ≤ c.toNat ∧ c.toNat ≤ 0x5A) ∨
      (0x61 ≤ c.toNat ∧ c.toNat ≤ 0x7A) := by
  rw [isValid, ← Option.isSome_map (f := BitVec.toNat), valOf_toNat]
  split_ifs <;> rw [codeRangeVal_isSome_iff] <;> omega

/-- Case folding: a lower-case letter has the value of its upper case. -/
theorem valOf_add_0x20 (c : Symbol) (hA : 0x41 ≤ c.toNat) (hZ : c.toNat ≤ 0x5A) : valOf (c + 0x20) = valOf c := by
  have hlower : (c + 0x20).toNat = c.toNat + 0x20 :=
    BitVec.toNat_add_of_lt (show c.toNat + 0x20 < 2 ^ 8 by omega)
  apply Option.map_injective BitVec.toNat_injective
  rw [valOf_toNat, valOf_toNat, hlower, if_pos (by omega), if_neg (by omega), Nat.add_sub_cancel]

/-- No symbol is in two entries: membership in an entry is the value of the symbol, and `valOf` is a function. -/
theorem entryOf_disjoint {c : Symbol} {i j : Digit} (hi : c ∈ entryOf i) (hj : c ∈ entryOf j) : i = j :=
  Option.some.inj (((valOf_eq_some_iff c i).mpr hi).symm.trans ((valOf_eq_some_iff c j).mpr hj))

/-- No entry is empty, so the canonical symbol is its first. -/
theorem head?_entryOf (i : Digit) : (entryOf i).head? = some (canonOf i) := by
  have hmem : canonOf i ∈ entryOf i := (valOf_eq_some_iff _ _).mp (valOf_canonOf i)
  unfold canonOf at hmem ⊢
  cases h : entryOf i with
  | nil => simp [h] at hmem
  | cons c cs => rfl

/-- The sizes of the entries, in index order (R20 (d)). -/
theorem length_entryOf :
    (List.range 32).map (fun i => (entryOf (BitVec.ofNat 5 i)).length) =
      [3, 3, 1, 1, 1, 3, 1, 1, 1, 1] ++ List.replicate 17 2 ++ [4] ++ List.replicate 4 2 := by decide

/-- Settles O8: the table agrees with R19 code by code, and a value is membership in its entry. -/
theorem valByCodeRange : Obligations.ValByCodeRange := by
  unfold Obligations.ValByCodeRange
  exact ⟨valOf_toNat, valOf_eq_some_iff⟩

/-- Settles O7: validity and case folding from R19's code ranges, disjointness from `valOf` being a function; the canonical
alphabet, the count of valid codes and the entry sizes are read off the table. -/
theorem digitTableLaws : Obligations.DigitTableLaws := by
  unfold Obligations.DigitTableLaws
  refine ⟨head?_entryOf, ?alphabet, ?count, isValid_iff, fun _ _ _ => entryOf_disjoint, valOf_canonOf, length_entryOf,
    valOf_add_0x20⟩
  case alphabet => decide
  case count => decide +kernel

/-! ### The reset state -/

/-- STATUS reads 0 when both buffers are empty and no flag is set. -/
theorem statusWord_eq_zero {s : State} (heb : s.eb = []) (hdb : s.db = []) (hflags : s.flags = ⟨false, false, false⟩) :
    statusWord s = 0 := by
  simp only [statusWord, heb, hdb, hflags]
  decide

/-- Settles O47: a reset empties the buffers and the queue and clears the flags, so STATUS reads 0. -/
theorem resetState : Obligations.ResetState := by
  unfold Obligations.ResetState
  constructor
  · exact ⟨rfl, rfl, rfl, rfl, statusWord_eq_zero rfl rfl rfl⟩
  · intro s
    refine ⟨resetBlock s, rfl, resetBlock_eb s, resetBlock_db s, resetBlock_flags s, resetBlock_rq s, ?_,
      resetBlock_params s⟩
    exact statusWord_eq_zero (resetBlock_eb s) (resetBlock_db s) (resetBlock_flags s)

end Sys2Proof.Machine
end

section
/-! PROOFS (spec/20_memory.md). The byte order inside a chunk: `Pack5` and `Unpack5` are the joining and the splitting of
8-bit lanes. -/

namespace Sys2Proof.Machine

/-- `Pack5` is the number of the byte lanes. -/
theorem packNat_eq_laneNumber (b : List Byte) : packNat b = laneNumber b := rfl

/-- `Unpack5` cuts a vector of any width into its 5 low byte lanes. -/
theorem unpackNat_toNat {m : Nat} (v : BitVec m) : unpackNat v.toNat = splitLanes 8 5 v := by
  refine List.map_congr_left fun j _ => BitVec.eq_of_toNat_eq ?_
  rw [BitVec.toNat_ofNat, BitVec.extractLsb'_toNat, Nat.shiftRight_eq_div_pow, Nat.pow_mul]

/-- The 40-bit vector of 5 bytes is their `Pack5`: nothing is cut. -/
theorem toNat_joinLanes_eq_packNat (b : List Byte) (h : b.length = 5) : (joinLanes 40 b : Chunk).toNat = packNat b := by
  rw [joinLanes_toNat b (by omega), packNat_eq_laneNumber]

/-- `Unpack5(Pack5(b)) = b` for 5 bytes (R30). -/
theorem unpackNat_packNat (b : List Byte) (h : b.length = 5) : unpackNat (packNat b) = b := by
  rw [← toNat_joinLanes_eq_packNat b h, unpackNat_toNat]
  simpa only [h] using splitLanes_joinLanes (m := 40) b (by omega)

/-- `Pack5(Unpack5(n)) = n` for a chunk (R30). -/
theorem packNat_unpackNat (n : Chunk) : packNat (unpackNat n.toNat) = n.toNat := by
  rw [unpackNat_toNat, packNat_eq_laneNumber, laneNumber_splitLanes]
  exact Nat.mod_eq_of_lt n.isLt

/-- Concatenation in numbers: shift the upper part over the lower one and add. -/
theorem toNat_append_eq_add {n m : Nat} (x : BitVec n) (y : BitVec m) :
    (x ++ y).toNat = x.toNat * 2 ^ m + y.toNat := by
  rw [BitVec.toNat_append, ← Nat.shiftLeft_add_eq_or_of_lt y.isLt, Nat.shiftLeft_eq]

/-- 5 bytes side by side, the first one in front, are their `Pack5`: both go by Horner's rule. -/
theorem toNat_append_eq_packNat (b0 b1 b2 b3 b4 : Byte) :
    (b0 ++ b1 ++ b2 ++ b3 ++ b4).toNat = packNat [b0, b1, b2, b3, b4] := by
  simp only [toNat_append_eq_add, packNat, List.foldl_cons, List.foldl_nil, Nat.zero_mul, Nat.zero_add, Nat.reducePow]

/-- The weights of the 5 bytes (R30). -/
theorem packNat_eq_weights (b0 b1 b2 b3 b4 : Byte) : packNat [b0, b1, b2, b3, b4] =
    b0.toNat * 2 ^ 32 + b1.toNat * 2 ^ 24 + b2.toNat * 2 ^ 16 + b3.toNat * 2 ^ 8 + b4.toNat := by
  simp only [packNat, List.foldl_cons, List.foldl_nil]
  omega

/-- Settles O22: `Pack5` is the number of the joined lanes and `Unpack5` their splitting, so big-endian order and both
inverses are laws of the lanes. -/
theorem chunkByteOrder : Obligations.ChunkByteOrder := by
  unfold Obligations.ChunkByteOrder
  constructor
  · intro b0 b1 b2 b3 b4
    have hjoin := toNat_joinLanes_eq_packNat [b0, b1, b2, b3, b4] rfl
    have happend := toNat_append_eq_packNat b0 b1 b2 b3 b4
    exact ⟨packNat_eq_weights b0 b1 b2 b3 b4, BitVec.eq_of_toNat_eq (hjoin.trans happend.symm), hjoin,
      unpackNat_packNat _ rfl⟩
  · exact fun n => ⟨unpackNat_toNat n, packNat_unpackNat n⟩

end Sys2Proof.Machine
end

section
/-! PROOFS (spec/40_digit_ops.md). ENCD, DECD and DSET: what each answers on either side of its range, and the laws that
connect them. -/

namespace Sys2Proof.Machine

/-! ### The operands (R48) -/

theorem argDigit_eq_ofNat (a : Arg) : argDigit a = BitVec.ofNat 5 a.toNat := rfl

theorem argSymbol_eq_ofNat (a : Arg) : argSymbol a = BitVec.ofNat 8 a.toNat := rfl

/-- The upper 59 bits of an argument are clear exactly when it is a digit value. -/
theorem argInRange_iff (a : Arg) : argInRange a = true ↔ a.toNat < 32 := by
  have hupper : (a.extractLsb' 5 59).toNat = a.toNat / 32 := by
    have hlt := a.isLt
    rw [BitVec.extractLsb'_toNat, Nat.shiftRight_eq_div_pow]
    omega
  rw [argInRange, decide_eq_true_iff, ← BitVec.toNat_inj, hupper]
  exact Nat.div_eq_zero_iff_lt (by decide)

/-- Widening a vector and reading back its own width gives the vector. -/
theorem ofNat_toNat_setWidth {n m : Nat} (h : n ≤ m) (x : BitVec n) : BitVec.ofNat n (x.setWidth m).toNat = x := by
  rw [BitVec.ofNat_toNat, BitVec.setWidth_setWidth_of_le x h, BitVec.setWidth_eq]

theorem setWidth_injective {n m : Nat} (h : n ≤ m) : Function.Injective (BitVec.setWidth (w := n) m) :=
  fun x y hxy => by rw [← ofNat_toNat_setWidth h x, hxy, ofNat_toNat_setWidth h y]

theorem argDigit_setWidth (v : Digit) : argDigit (v.setWidth 64) = v := ofNat_toNat_setWidth (by decide) v

theorem argSymbol_setWidth (c : Symbol) : argSymbol (c.setWidth 64) = c := ofNat_toNat_setWidth (by decide) c

theorem toNat_setWidth_digit_lt (v : Digit) : (v.setWidth 64 : Arg).toNat < 32 := by
  rw [BitVec.toNat_setWidth_of_le (by decide)]
  exact v.isLt

/-! ### The table -/

theorem canonOf_mem_entryOf (v : Digit) : canonOf v ∈ entryOf v := (valOf_eq_some_iff _ v).mp (valOf_canonOf v)

theorem canonOf_injective : Function.Injective canonOf := fun v w h =>
  Option.some.inj (by rw [← valOf_canonOf v, h, valOf_canonOf])

theorem valOf_eq_none_iff (c : Symbol) : valOf c = none ↔ ∀ v, c ∉ entryOf v := by
  simp only [Option.eq_none_iff_forall_ne_some, ne_eq, valOf_eq_some_iff]

/-- A symbol of entry `v` that is canonical at all is the canonical symbol of `v`. -/
theorem canonOf_eq_iff_of_mem {c : Symbol} {v : Digit} (h : c ∈ entryOf v) : canonOf v = c ↔ ∃ i, c = canonOf i := by
  constructor
  · exact fun hc => ⟨v, hc.symm⟩
  · rintro ⟨i, rfl⟩
    exact congrArg canonOf (entryOf_disjoint h (canonOf_mem_entryOf i))

/-! ### The fields of a RESULT (R44) -/

@[simp] theorem rspOk_resultWord (op : Opcode) (ok : Bool) (cnt : BitVec 4) (data : Data) :
    rspOk (resultWord op ok cnt data) = ok := by rw [resultWord_eq, rspOk_wordOf]

@[simp] theorem rspData_resultWord (op : Opcode) (ok : Bool) (cnt : BitVec 4) (data : Data) :
    rspData (resultWord op ok cnt data) = data := by rw [resultWord_eq, rspData_wordOf]

@[simp] theorem rspOk_absentWord (op : Opcode) : rspOk (absentWord op) = false := rspOk_resultWord op false 0 0

/-! ### What each command does -/

section Commands

variable (a : Arg) (s : State)

/-- ENCD of an argument in range (R50). -/
theorem exec_encd_of_lt (h : a.toNat < 32) :
    exec (.encd a) s = .next (emit (resultWord 0x1 true 0 ((canonOf (argDigit a)).setWidth 64)) s) := by
  simp only [exec, execEncd, if_pos ((argInRange_iff a).mpr h)]

/-- ENCD of an argument out of range (R50). -/
theorem exec_encd_of_ge (h : 32 ≤ a.toNat) : exec (.encd a) s = .next (emit (absentWord 0x1) s) := by
  simp only [exec, execEncd, if_neg (mt (argInRange_iff a).mp (Nat.not_lt.mpr h))]

/-- DECD of a symbol of entry `v` (R51). -/
theorem exec_decd_of_mem {v : Digit} (h : argSymbol a ∈ entryOf v) :
    exec (.decd a) s = .next (emit (resultWord 0x2 true 0 (v.setWidth 64)) s) := by
  simp only [exec, execDecd, (valOf_eq_some_iff _ v).mpr h]

/-- DECD of a symbol of no entry (R51). -/
theorem exec_decd_of_invalid (h : valOf (argSymbol a) = none) : exec (.decd a) s = .next (emit (absentWord 0x2) s) := by
  simp only [exec, execDecd, h]

/-- A command that emits one response has that response as its only new one. -/
theorem newResponses_of_emit {i : Instr} {s : State} {r : ResponseWord} (h : exec i s = .next (emit r s)) :
    newResponses i s = [r] := by
  simp only [newResponses, h, emit_rq, List.drop_left]

theorem newResponses_encd_digit (v : Digit) :
    newResponses (.encd (v.setWidth 64)) s = [resultWord 0x1 true 0 ((canonOf v).setWidth 64)] := by
  rw [newResponses_of_emit (exec_encd_of_lt _ s (toNat_setWidth_digit_lt v)), argDigit_setWidth]

theorem newResponses_decd_of_mem {c : Symbol} {v : Digit} (h : c ∈ entryOf v) :
    newResponses (.decd (c.setWidth 64)) s = [resultWord 0x2 true 0 (v.setWidth 64)] :=
  newResponses_of_emit (exec_decd_of_mem _ s (by rwa [argSymbol_setWidth]))

/-- ENCD is present exactly below 32. -/
theorem any_rspOk_encd : (newResponses (.encd a) s).any rspOk = true ↔ a.toNat < 32 := by
  rcases Nat.lt_or_ge a.toNat 32 with h | h
  · simp [newResponses_of_emit (exec_encd_of_lt a s h), h]
  · simp [newResponses_of_emit (exec_encd_of_ge a s h), h]

/-- DECD is present exactly for a valid symbol. -/
theorem any_rspOk_decd : (newResponses (.decd a) s).any rspOk = isValid (argSymbol a) := by
  cases h : valOf (argSymbol a) with
  | none => simp [newResponses_of_emit (exec_decd_of_invalid a s h), isValid, h]
  | some v => simp [newResponses_of_emit (exec_decd_of_mem a s ((valOf_eq_some_iff _ v).mp h)), isValid, h]

/-- DSET is present exactly below 32. -/
theorem any_rspOk_dset : (newResponses (.dset a) s).any rspOk = true ↔ a.toNat < 32 := by
  rw [newResponses_of_emit (i := .dset a) (s := s) rfl, ← argInRange_iff]
  cases argInRange a <;> simp

/-- The codes for which DECD is present are the 62 valid ones (R20). -/
theorem countP_any_rspOk_decd :
    (List.range 256).countP (fun c => (newResponses (.decd (BitVec.ofNat 64 c)) s).any rspOk) = 62 := by
  obtain ⟨-, -, hcount, -⟩ := digitTableLaws
  rw [← hcount]
  refine List.countP_congr fun c hc => ?_
  have hlt : c < 256 := List.mem_range.mp hc
  rw [any_rspOk_decd, argSymbol_eq_ofNat, BitVec.toNat_ofNat, Nat.mod_eq_of_lt (by omega)]

end Commands

/-! ### The statements -/

/-- Settles O9: an argument is a digit value exactly up to 31. -/
theorem encdAnswersCanonicalSymbol : Obligations.EncdAnswersCanonicalSymbol := by
  unfold Obligations.EncdAnswersCanonicalSymbol
  exact fun a s => ⟨fun h => exec_encd_of_lt a s (Nat.lt_succ_of_le h), exec_encd_of_ge a s⟩

/-- Settles O10: a symbol has no value exactly when no entry contains it. -/
theorem decdAnswersIndexOfEntry : Obligations.DecdAnswersIndexOfEntry := by
  unfold Obligations.DecdAnswersIndexOfEntry
  intro a s
  constructor
  · intro v hv
    rw [BitVec.ofNat_toNat]
    exact exec_decd_of_mem a s hv
  · exact fun h => exec_decd_of_invalid a s ((valOf_eq_none_iff _).mpr h)

/-- Settles O12: the response words are known, so each law is a law of the table: `canonOf` is injective with values in
its own entry, and the entries are disjoint. -/
theorem digitOperationLaws : Obligations.DigitOperationLaws := by
  unfold Obligations.DigitOperationLaws
  refine ⟨?decd_encd, ?encd_decd, ?injective, ?not_injective, countP_any_rspOk_decd,
    fun a s => ⟨any_rspOk_encd a s, any_rspOk_dset a s⟩⟩
  case decd_encd =>
    intro v s
    refine ⟨_, resultWord 0x2 true 0 (v.setWidth 64), newResponses_encd_digit s v, rspOk_resultWord .., ?_,
      rspOk_resultWord .., rspData_resultWord ..⟩
    rw [rspData_resultWord]
    exact newResponses_decd_of_mem s (canonOf_mem_entryOf v)
  case encd_decd =>
    intro c v s hc
    refine ⟨_, resultWord 0x1 true 0 ((canonOf v).setWidth 64), newResponses_decd_of_mem s hc, rspOk_resultWord .., ?_,
      rspOk_resultWord .., rspData_resultWord .., ?_⟩
    · rw [rspData_resultWord]
      exact newResponses_encd_digit s v
    · rw [rspData_resultWord, (setWidth_injective (by decide)).eq_iff]
      exact canonOf_eq_iff_of_mem hc
  case injective =>
    intro v w s h
    rw [newResponses_encd_digit, newResponses_encd_digit] at h
    have hdata : (canonOf v).setWidth 64 = (canonOf w).setWidth 64 := by
      simpa only [rspData_resultWord] using congrArg rspData (List.singleton_inj.mp h)
    exact canonOf_injective (setWidth_injective (by decide) hdata)
  case not_injective =>
    -- '0' and 'O' are both symbols of entry 0.
    refine ⟨0x30, 0x4F, by decide, by decide, by decide, fun s => ?_⟩
    have h0 : (0x30 : Symbol) ∈ entryOf 0 := by decide
    have hO : (0x4F : Symbol) ∈ entryOf 0 := by decide
    rw [newResponses_decd_of_mem s h0, newResponses_decd_of_mem s hO]

end Sys2Proof.Machine
end

section
/-! PROOFS (spec/41_integer_reference.md). The integer codec as base-32 notation: `IntEnc` writes the digits `Nat.digits 32`
from the most significant one, and `IntDec` reads the number of the values of the valid symbols. -/

namespace Sys2Proof.Machine

/-! ### What IntDec reads (R56) -/

/-- Horner's rule and the sum of the digits by weight are the same number. -/
theorem laneNumber_eq_ofDigits {w : Nat} (l : List (BitVec w)) :
    laneNumber l = Nat.ofDigits (2 ^ w) (l.map BitVec.toNat).reverse := by
  induction l with
  | nil => rfl
  | cons x l ih =>
    rw [laneNumber_cons, ih, List.map_cons, Nat.ofDigits_reverse_cons, List.length_map, ← pow_mul]
    ring

/-- A valid symbol is one that has a value. -/
theorem length_filterMap_valOf (s : List Symbol) : (s.filterMap valOf).length = (s.filter isValid).length := by
  rw [List.length_filterMap_eq_countP, List.countP_eq_length_filter]
  rfl

theorem filterMap_valOf_filter_isValid (s : List Symbol) : (s.filter isValid).filterMap valOf = s.filterMap valOf := by
  induction s with
  | nil => rfl
  | cons c s ih => cases h : valOf c <;> simp [isValid, h, ih]

/-- The rounds from the right end with the value of the valid symbols and their number. -/
theorem foldr_intDecRound (s : List Symbol) :
    s.foldr intDecRound (0, 0) = (laneNumber (s.filterMap valOf), (s.filterMap valOf).length) := by
  induction s with
  | nil => rfl
  | cons c s ih =>
    rw [List.foldr_cons, ih, intDecRound]
    cases h : valOf c with
    | none => rw [List.filterMap_cons_none h]
    | some v =>
      rw [List.filterMap_cons_some h, laneNumber_cons, List.length_cons, pow_mul, Nat.add_comm (_ * _)]
      rfl

theorem intDec_eq_laneNumber (s : List Symbol) : intDec s = laneNumber (s.filterMap valOf) := by
  rw [intDec, foldr_intDecRound]

theorem intDec_map_canonOf (ds : List Digit) : intDec (ds.map canonOf) = laneNumber ds := by
  rw [intDec_eq_laneNumber, filterMap_valOf_map_canonOf]

/-! ### What IntEnc writes (R55) -/

/-- The base-32 digits of `n`, the most significant one first; no digit for 0. -/
def numeral (n : Nat) : List Digit := (Nat.digits 32 n).reverse.map (BitVec.ofNat 5)

/-- The loop of R55 puts the numeral of `v` in front, if the bound on the rounds is large enough. -/
theorem intEncLoop_eq {fuel v : Nat} (h : v ≤ fuel) (s : List Symbol) :
    intEncLoop fuel v s = (numeral v).map canonOf ++ s := by
  induction fuel generalizing v s with
  | zero =>
    obtain rfl : v = 0 := Nat.le_zero.mp h
    simp [intEncLoop, numeral]
  | succ fuel ih =>
    rw [intEncLoop]
    split
    case isTrue hv => simp [hv, numeral]
    case isFalse hv =>
      rw [ih (by omega)]
      simp [numeral, Nat.digits_eq_cons_digits_div (by decide : 1 < 32) hv]

theorem intEnc_zero : intEnc 0 = [canonOf 0] := rfl

theorem intEnc_of_ne_zero {n : Int} (h : n ≠ 0) : intEnc n = (numeral n.natAbs).map canonOf := by
  rw [intEnc, if_neg (Int.natAbs_ne_zero.mpr h), intEncLoop_eq le_rfl, List.append_nil]

theorem intEnc_neg (n : Int) : intEnc n = intEnc (-n) := by rw [intEnc, intEnc, Int.natAbs_neg]

/-- Every encoded digit string consists of canonical symbols. -/
theorem exists_intEnc_eq_map_canonOf (n : Int) : ∃ ds : List Digit, intEnc n = ds.map canonOf := by
  by_cases h : n = 0
  · exact ⟨[0], h ▸ intEnc_zero⟩
  · exact ⟨_, intEnc_of_ne_zero h⟩

/-! ### Numerals and numbers -/

theorem map_toNat_numeral (n : Nat) : (numeral n).map BitVec.toNat = (Nat.digits 32 n).reverse := by
  rw [numeral, List.map_map]
  refine (List.map_congr_left fun d hd => ?_).trans (List.map_id _)
  exact Nat.mod_eq_of_lt (Nat.digits_lt_base (by decide) (List.mem_reverse.mp hd))

theorem laneNumber_numeral (n : Nat) : laneNumber (numeral n) = n := by
  rw [laneNumber_eq_ofDigits, map_toNat_numeral, List.reverse_reverse]
  exact Nat.ofDigits_digits 32 n

/-- A numeral has no leading zero. -/
theorem head?_numeral_ne_zero (n : Nat) : (numeral n).head? ≠ some 0 := by
  intro h
  have hlast : (Nat.digits 32 n).getLast? = some 0 := by
    rw [← List.head?_reverse, ← map_toNat_numeral, List.head?_map, h]
    rfl
  obtain ⟨hne, hzero⟩ := List.mem_getLast?_eq_getLast hlast
  exact Nat.getLast_digit_ne_zero 32 (Nat.digits_ne_nil_iff_ne_zero.mp hne) hzero.symm

/-- A sequence of digits without a leading zero is the numeral of its number. -/
theorem numeral_laneNumber {ds : List Digit} (h : ds.head? ≠ some 0) : numeral (laneNumber ds) = ds := by
  have hlt : ∀ d ∈ (ds.map BitVec.toNat).reverse, d < 2 ^ 5 := by
    intro d hd
    obtain ⟨v, -, rfl⟩ := List.mem_map.mp (List.mem_reverse.mp hd)
    exact v.isLt
  have hlast : ∀ hne : (ds.map BitVec.toNat).reverse ≠ [], (ds.map BitVec.toNat).reverse.getLast hne ≠ 0 := by
    cases ds with
    | nil => exact fun hne => absurd rfl hne
    | cons v ds => simpa [BitVec.toNat_eq] using h
  have hdigits : Nat.digits 32 (laneNumber ds) = (ds.map BitVec.toNat).reverse := by
    rw [laneNumber_eq_ofDigits]
    exact Nat.digits_ofDigits _ (by decide) _ hlt hlast
  apply List.map_injective_iff.mpr fun _ _ => BitVec.eq_of_toNat_eq
  rw [map_toNat_numeral, hdigits, List.reverse_reverse]

theorem intEnc_laneNumber {ds : List Digit} (hne : ds ≠ []) (h : ds.head? ≠ some 0) :
    intEnc (laneNumber ds) = ds.map canonOf := by
  have hpos : (laneNumber ds : Int) ≠ 0 := by
    intro hzero
    have hnil := numeral_laneNumber h
    rw [Int.natCast_eq_zero.mp hzero] at hnil
    exact hne hnil.symm
  rw [intEnc_of_ne_zero hpos, Int.natAbs_natCast, numeral_laneNumber h]

theorem length_numeral_le_iff (n k : Nat) : (numeral n).length ≤ k ↔ n < 32 ^ k := by
  rw [numeral, List.length_map, List.length_reverse, Nat.digits_length_le_iff (by decide)]

/-! ### The laws of the codec -/

theorem intDec_intEnc (n : Int) : intDec (intEnc n) = n.natAbs := by
  by_cases h : n = 0
  · subst h; decide
  · rw [intEnc_of_ne_zero h, intDec_map_canonOf, laneNumber_numeral]

theorem intEnc_ne_nil (n : Int) : intEnc n ≠ [] := by
  by_cases h : n = 0
  · simp [h, intEnc_zero]
  · intro hnil
    have hdec := intDec_intEnc n
    rw [hnil] at hdec
    exact h (Int.natAbs_eq_zero.mp hdec.symm)

/-- The only encoded digit string with a leading `'0'` is `"0"`. -/
theorem intEnc_eq_zero_of_head? {n : Int} (h : (intEnc n).head? = some (canonOf 0)) : intEnc n = [canonOf 0] := by
  by_cases hn : n = 0
  · rw [hn, intEnc_zero]
  · rw [intEnc_of_ne_zero hn, List.head?_map] at h
    exact absurd (Option.map_injective canonOf_injective (a₂ := some 0) h) (head?_numeral_ne_zero _)

/-- R59, the converse: a string of canonical symbols without a leading `'0'`, or `"0"`, is an encoded digit string. -/
theorem intEnc_intDec_of_canonical {s : List Symbol} (hne : s ≠ []) (hcanon : ∀ c ∈ s, ∃ i : Digit, c = canonOf i)
    (hzero : s.head? = some (canonOf 0) → s = [canonOf 0]) : intEnc (intDec s) = s := by
  obtain ⟨ds, rfl⟩ : s ∈ Set.range (List.map canonOf) := by
    rw [Set.range_list_map]
    exact fun c hc => (hcanon c hc).imp fun _ => Eq.symm
  by_cases h : ds.head? = some 0
  · rw [hzero (by rw [List.head?_map, h]; rfl)]
    decide
  · rw [intDec_map_canonOf, intEnc_laneNumber (List.map_eq_nil_iff.not.mp hne) h]

/-- R61, for 0 too: its numeral has no digit, and the encoded string has one symbol. -/
theorem length_intEnc_le_iff (n : Int) {k : Nat} (hk : 1 ≤ k) : (intEnc n).length ≤ k ↔ n.natAbs < 32 ^ k := by
  by_cases h : n = 0
  · simp [h, intEnc_zero, hk]
  · rw [intEnc_of_ne_zero h, List.length_map, length_numeral_le_iff]

/-! ### The statements -/

/-- Settles O14: the codec is base-32 notation both ways, and a sequence of digits without a leading zero is the only one
of its number. -/
theorem integerCodecRoundTrip : Obligations.IntegerCodecRoundTrip := by
  unfold Obligations.IntegerCodecRoundTrip
  refine ⟨fun n => intDec_intEnc n, intDec_intEnc, intEnc_neg, by decide, fun s => ⟨fun h => ?_, ?_⟩⟩
  · rw [← h]
    refine ⟨intEnc_ne_nil _, fun c hc => ?_, intEnc_eq_zero_of_head?⟩
    obtain ⟨ds, hds⟩ := exists_intEnc_eq_map_canonOf (intDec s)
    rw [hds] at hc
    exact (List.mem_map.mp hc).imp fun _ hi => hi.2.symm
  · exact fun ⟨hne, hcanon, hzero⟩ => intEnc_intDec_of_canonical hne hcanon hzero

/-- Settles O15: IntDec sees only the values of the valid symbols, and their number splits as the values do. -/
theorem intDecSkipLaw : Obligations.IntDecSkipLaw := by
  unfold Obligations.IntDecSkipLaw
  constructor
  · intro s
    rw [intDec_eq_laneNumber, intDec_eq_laneNumber, filterMap_valOf_filter_isValid]
  · intro s t
    simp only [intDec_eq_laneNumber]
    rw [List.filterMap_append, laneNumber_append, length_filterMap_valOf, pow_mul]
    rfl

/-- Settles O16: `length_intEnc_le_iff` at the length itself, at any `k` and at 8. -/
theorem numeralLength : Obligations.NumeralLength := by
  unfold Obligations.NumeralLength
  have hpos (n : Int) : 1 ≤ (intEnc n).length := List.length_pos_iff.mpr (intEnc_ne_nil n)
  refine ⟨fun n _ => ⟨hpos n, (length_intEnc_le_iff n (hpos n)).mp le_rfl, fun k hk => (length_intEnc_le_iff n hk).mpr⟩,
    rfl, fun n => ?_⟩
  rw [length_intEnc_le_iff n (by decide)]
  norm_num

end Sys2Proof.Machine
end

section
/-! PROOFS (spec/42_chunk_ops.md). The chunk engine as the integer codec: 8 digits with the number of a chunk are its 5-bit
lanes, whether the codec writes them padded with zeros or a group of symbols spells them. -/

namespace Sys2Proof.Machine

/-! ### Lanes and numbers -/

theorem laneNumber_replicate_zero {w : Nat} (k : Nat) : laneNumber (List.replicate k (0 : BitVec w)) = 0 := by
  induction k with
  | zero => rfl
  | succ k ih => rw [List.replicate_succ, laneNumber_cons, ih, BitVec.ofNat_eq_ofNat, BitVec.toNat_zero, Nat.zero_mul]

/-- Leading zeros do not change the number. -/
theorem laneNumber_replicate_zero_append {w : Nat} (k : Nat) (l : List (BitVec w)) :
    laneNumber (List.replicate k 0 ++ l) = laneNumber l := by
  rw [laneNumber_append, laneNumber_replicate_zero, Nat.zero_mul, Nat.zero_add]

/-- Lanes with the number of a vector are the lanes of that vector. -/
theorem splitLanes_eq_of_laneNumber_eq {w m k : Nat} {l : List (BitVec w)} {v : BitVec m} (hlen : l.length = k)
    (hfit : w * k ≤ m) (hnum : laneNumber l = v.toNat) : splitLanes w k v = l := by
  subst hlen
  have hjoin : joinLanes m l = v := BitVec.eq_of_toNat_eq ((joinLanes_toNat l hfit).trans hnum)
  rw [← hjoin, splitLanes_joinLanes l hfit]

/-- 8 lanes side by side, the first one in front: both numbers go by Horner's rule. -/
theorem joinLanes_eq_append {w : Nat} (x0 x1 x2 x3 x4 x5 x6 x7 : BitVec w) :
    joinLanes (w + w + w + w + w + w + w + w) [x0, x1, x2, x3, x4, x5, x6, x7] =
      x0 ++ x1 ++ x2 ++ x3 ++ x4 ++ x5 ++ x6 ++ x7 := by
  apply BitVec.eq_of_toNat_eq
  rw [joinLanes_toNat _ (by simp only [List.length_cons, List.length_nil]; omega)]
  simp only [toNat_append_eq_add, laneNumber, List.foldl_cons, List.foldl_nil, Nat.zero_mul, Nat.zero_add]

/-! ### EncChunk -/

/-- The 8 symbols of R62 are the canonical symbols of the chunk's lanes: the padded numeral has 8 digits and the number of
the chunk. -/
theorem encChunkRef_toNat (n : Chunk) : encChunkRef n.toNat = encChunk n := by
  obtain ⟨ds, hds⟩ := exists_intEnc_eq_map_canonOf n.toNat
  have hnum : laneNumber ds = n.toNat := by rw [← intDec_map_canonOf, ← hds, intDec_intEnc, Int.natAbs_natCast]
  have hlen : ds.length ≤ 8 := by
    rw [← List.length_map (f := canonOf), ← hds, length_intEnc_le_iff _ (by decide), Int.natAbs_natCast]
    exact n.isLt
  have hpadded : (List.replicate (8 - ds.length) 0 ++ ds).length = 8 := by
    rw [List.length_append, List.length_replicate, Nat.sub_add_cancel hlen]
  have hlanes : splitLanes 5 8 n = List.replicate (8 - ds.length) 0 ++ ds :=
    splitLanes_eq_of_laneNumber_eq hpadded le_rfl ((laneNumber_replicate_zero_append _ ds).trans hnum)
  rw [encChunkRef, hds, encChunk, hlanes, List.map_append, List.map_replicate, List.length_map]

/-- The 8 symbols by bit position (R64). -/
theorem encChunk_eq_canonOf_lanes (n : Chunk) : encChunk n =
    [canonOf (n.extractLsb' 35 5), canonOf (n.extractLsb' 30 5), canonOf (n.extractLsb' 25 5), canonOf (n.extractLsb' 20 5),
      canonOf (n.extractLsb' 15 5), canonOf (n.extractLsb' 10 5), canonOf (n.extractLsb' 5 5),
      canonOf (n.extractLsb' 0 5)] := rfl

theorem isValid_of_mem_encChunk {n : Chunk} {c : Symbol} (h : c ∈ encChunk n) : isValid c = true := by
  obtain ⟨v, -, rfl⟩ := List.mem_map.mp h
  exact isValid_canonOf v

/-! ### DecGroupCnt -/

/-- The number of at most 8 symbols fits the chunk (R63). -/
theorem intDec_lt {g : List Symbol} (h : g.length ≤ 8) : intDec g < 2 ^ 40 := by
  have hlen : (g.filterMap valOf).length ≤ 8 := (List.length_filterMap_le valOf g).trans h
  rw [intDec_eq_laneNumber]
  exact (laneNumber_lt _).trans_le (Nat.pow_le_pow_right (by decide) (by omega))

theorem decGroupCnt_toNat_eq_intDec {g : List Symbol} (h : g.length ≤ 8) : (decGroupCnt g).1.toNat = intDec g := by
  rw [decGroupCnt_toNat g h, intDec_eq_laneNumber]

theorem decGroupCnt_snd (g : List Symbol) : (decGroupCnt g).2 = (g.filter isValid).length := length_filterMap_valOf g

/-- Symbols that all have a value, decoded: their values side by side. -/
theorem decGroupCnt_of_map_valOf {g : List Symbol} {ds : List Digit} (h : g.map valOf = ds.map some) :
    decGroupCnt g = (joinLanes 40 ds, ds.length) := by
  have hvalues : g.filterMap valOf = ds := by
    calc g.filterMap valOf = (g.map valOf).filterMap id := by rw [List.filterMap_map]; rfl
      _ = ds := by rw [h, List.filterMap_map]; exact List.filterMap_some
  rw [decGroupCnt, hvalues]

theorem decGroupCnt_encChunk (n : Chunk) : decGroupCnt (encChunk n) = (n, 8) := by
  rw [decGroupCnt, filterMap_valOf_encChunk, joinLanes_splitLanes_self 8 rfl, length_splitLanes]

theorem encChunk_injective : Function.Injective encChunk := fun n m h => by
  have hdec := decGroupCnt_encChunk n
  rw [h, decGroupCnt_encChunk] at hdec
  exact (congrArg Prod.fst hdec).symm

/-! ### Canonicalisation (R68) -/

/-- Replacing each valid symbol by the canonical one of its entry spells the same values. -/
theorem map_canonOf_filterMap_valOf {g : List Symbol} (hvalid : ∀ c ∈ g, isValid c = true) :
    (g.filterMap valOf).map canonOf = g.map (fun c => ((valOf c).map canonOf).getD c) := by
  induction g with
  | nil => rfl
  | cons c g ih =>
    obtain ⟨hc, hg⟩ := List.forall_mem_cons.mp hvalid
    obtain ⟨v, hv⟩ := Option.isSome_iff_exists.mp hc
    rw [List.filterMap_cons_some hv, List.map_cons, List.map_cons, ih hg, hv]
    rfl

/-- A valid symbol stays as it is exactly when it is canonical. -/
theorem getD_map_canonOf_eq_self_iff {c : Symbol} (h : isValid c = true) :
    ((valOf c).map canonOf).getD c = c ↔ ∃ i, c = canonOf i := by
  obtain ⟨v, hv⟩ := Option.isSome_iff_exists.mp h
  rw [hv]
  exact canonOf_eq_iff_of_mem ((valOf_eq_some_iff c v).mp hv)

/-- Encoding the value of 8 valid symbols writes the canonical symbols of their values. -/
theorem encChunk_decGroupCnt {g : List Symbol} (hlen : g.length = 8) (hvalid : ∀ c ∈ g, isValid c = true) :
    encChunk (decGroupCnt g).1 = g.map (fun c => ((valOf c).map canonOf).getD c) := by
  have hdigits : (g.filterMap valOf).length = 8 := by
    rw [length_filterMap_valOf, List.filter_eq_self.mpr hvalid, hlen]
  have hlanes : splitLanes 5 8 (decGroupCnt g).1 = g.filterMap valOf :=
    splitLanes_eq_of_laneNumber_eq hdigits le_rfl (decGroupCnt_toNat g hlen.le).symm
  rw [encChunk, hlanes, map_canonOf_filterMap_valOf hvalid]

/-! ### The two commands -/

theorem toNat_argChunk (a : Arg) : (argChunk a).toNat = a.toNat % 2 ^ 40 := by
  rw [argChunk, BitVec.extractLsb'_toNat, Nat.shiftRight_zero]

/-- The symbols that ENCC answers are the operand of DECC as they stand. -/
theorem argGroup_joinLanes_encChunk (n : Chunk) : argGroup (joinLanes 64 (encChunk n)) = encChunk n :=
  splitLanes_eq_of_laneNumber_eq (length_encChunk n) le_rfl (joinLanes_toNat _ (by rw [length_encChunk])).symm

theorem exec_encc (a : Arg) (s : State) :
    exec (.encc a) s = .next (emit (resultWord 0x4 true 0 (joinLanes 64 (encChunk (argChunk a)))) s) := rfl

/-- DECC of a group with a known value and number of valid symbols. -/
theorem exec_decc_of_decGroupCnt {a : Arg} {n : Chunk} {m : Nat} (h : decGroupCnt (argGroup a) = (n, m)) (s : State) :
    exec (.decc a) s = .next (emit (resultWord 0x5 (m == 8) (BitVec.ofNat 4 m) (n.setWidth 64)) s) := by
  simp only [exec, execDecc, h]

/-! ### The statements -/

/-- Settles O17: the codec writes the chunk's lanes, and 8 values side by side are the number that it reads. -/
theorem chunkEngineRefinesIntegerCodec : Obligations.ChunkEngineRefinesIntegerCodec := by
  unfold Obligations.ChunkEngineRefinesIntegerCodec
  refine ⟨fun n => ⟨encChunkRef_toNat n, encChunk_eq_canonOf_lanes n⟩, fun g v0 v1 v2 v3 v4 v5 v6 v7 h => ?_⟩
  have hlen : g.length = 8 := by simpa using congrArg List.length h
  have hdec : decGroupCnt g = (v0 ++ v1 ++ v2 ++ v3 ++ v4 ++ v5 ++ v6 ++ v7, 8) :=
    (decGroupCnt_of_map_valOf (ds := [v0, v1, v2, v3, v4, v5, v6, v7]) h).trans
      (congrArg (·, 8) (joinLanes_eq_append v0 v1 v2 v3 v4 v5 v6 v7))
  refine ⟨?_, hdec⟩
  rw [← decGroupCnt_toNat_eq_intDec hlen.le, hdec]

/-- Settles O18: at most 8 values of 5 bits fit 40 bits, so joining them loses nothing. -/
theorem groupDecoderFollowsIntegerCodec : Obligations.GroupDecoderFollowsIntegerCodec := by
  unfold Obligations.GroupDecoderFollowsIntegerCodec
  exact fun g hlen => ⟨intDec_lt hlen, decGroupCnt_toNat_eq_intDec hlen, decGroupCnt_snd g⟩

/-- Settles O19: the symbols are those of the engine, which are the codec's for the number of the operand. -/
theorem enccAnswersEncodedChunk : Obligations.EnccAnswersEncodedChunk := by
  unfold Obligations.EnccAnswersEncodedChunk
  intro a s
  have hsymbols : encChunk (argChunk a) = encChunkRef (a.toNat % 2 ^ 40) := by rw [← toNat_argChunk, encChunkRef_toNat]
  have hresponse := exec_encc a s
  rw [encChunk_eq_canonOf_lanes] at hsymbols hresponse
  refine ⟨_, _, _, _, _, _, _, _, hsymbols, hresponse.trans ?_⟩
  rw [joinLanes_eq_append]
  rfl

/-- Settles O21: DECC reads the group that ENCC writes, `decGroupCnt` is a left inverse of `encChunk`, and the other order
replaces each symbol by its canonical one. -/
theorem chunkRoundTrip : Obligations.ChunkRoundTrip := by
  unfold Obligations.ChunkRoundTrip
  refine ⟨?round_trip, ?canonicalises, encChunk_injective, ?onto, ?not_injective⟩
  case round_trip =>
    intro a s
    refine ⟨_, newResponses_of_emit (exec_encc a s), ?_⟩
    have hdec : decGroupCnt (argGroup (joinLanes 64 (encChunk (argChunk a)))) = (argChunk a, 8) := by
      rw [argGroup_joinLanes_encChunk, decGroupCnt_encChunk]
    rw [rspData_resultWord, newResponses_of_emit (exec_decc_of_decGroupCnt hdec s), ← toNat_argChunk, BitVec.ofNat_toNat]
    rfl
  case canonicalises =>
    intro g hlen hvalid
    rw [encChunk_decGroupCnt hlen hvalid]
    refine ⟨rfl, ?_⟩
    calc _ ↔ g.map (fun c => ((valOf c).map canonOf).getD c) = g.map id := by rw [List.map_id]
      _ ↔ ∀ c ∈ g, ((valOf c).map canonOf).getD c = c := List.map_eq_map_iff
      _ ↔ _ := forall₂_congr fun c hc => getD_map_canonOf_eq_self_iff (hvalid c hc)
  case onto =>
    exact fun n => ⟨encChunk n, length_encChunk n, fun _ => isValid_of_mem_encChunk, decGroupCnt_encChunk n⟩
  case not_injective =>
    -- '0' and 'O' are both symbols of entry 0.
    exact ⟨List.replicate 8 0x30, List.replicate 8 0x4F, by decide, rfl, rfl, List.all_eq_true.mp (by decide), by decide⟩

end Sys2Proof.Machine
end

section
/-! PROOFS (spec/43_message_ops.md section 3). PUTB and PUTS: what each does with room in its buffer, on a full buffer and
after an overflow. -/

namespace Sys2Proof.Machine

theorem argByte_eq_ofNat (a : Arg) : argByte a = BitVec.ofNat 8 a.toNat := rfl

/-! ### After an overflow: the flag and the mark are set, so setting them again is no change -/

theorem setOvfb_eq_self {s : State} (hflag : s.flags.ovfb = true) (hmark : s.faulted = true) : setOvfb s = s := by
  obtain ⟨_, _, ⟨_, _, _⟩, _, _, _, _, _⟩ := s
  subst hflag hmark
  rfl

theorem setOvfd_eq_self {s : State} (hflag : s.flags.ovfd = true) (hmark : s.faulted = true) : setOvfd s = s := by
  obtain ⟨_, _, ⟨_, _, _⟩, _, _, _, _, _⟩ := s
  subst hflag hmark
  rfl

/-- After an overflow of the encode buffer it is full and setting OVFB again is no change (R75). -/
theorem full_and_setOvfb_eq_self {s : State} (hinv : s.Inv) (hflag : s.flags.ovfb = true) :
    s.eb.length = s.params.capB ∧ setOvfb s = s := by
  obtain ⟨-, -, hfull, -, hmark, -⟩ := hinv
  exact ⟨hfull hflag, setOvfb_eq_self hflag (hmark (by simp [hflag]))⟩

/-- After an overflow of the decode buffer it is full and setting OVFD again is no change (R77, R97). -/
theorem full_and_setOvfd_eq_self {s : State} (hinv : s.Inv) (hflag : s.flags.ovfd = true) :
    s.db.length = s.params.capD ∧ setOvfd s = s := by
  obtain ⟨-, -, -, hfull, hmark, -⟩ := hinv
  exact ⟨hfull hflag, setOvfd_eq_self hflag (hmark (by simp [hflag]))⟩

/-! ### PUTS after an overflow -/

/-- PUTS when the buffer is full and setting OVFD is no change: an invalid symbol is ignored, a valid one dropped. -/
theorem execPuts_of_overflowed (a : Arg) {s : State} (hfull : s.params.capD ≤ s.db.length) (hset : setOvfd s = s) :
    execPuts a s = .next s := by
  cases hv : valOf (argSymbol a) with
  | none => exact execPuts_of_invalid a s hv
  | some v => rw [execPuts_of_full a s v hv hfull, hset]

/-! ### The statements -/

/-- Settles O29: by room in the encode buffer; after an overflow the buffer is full and its flag and mark already set. -/
theorem putbAppendsOrOverflows : Obligations.PutbAppendsOrOverflows := by
  unfold Obligations.PutbAppendsOrOverflows
  intro a s
  refine ⟨fun hroom => ?_, fun hfull => ⟨true, execPutb_of_full a s hfull⟩, fun hinv hflag => ?_⟩
  · rw [← argByte_eq_ofNat]
    exact execPutb_of_lt a s hroom
  · obtain ⟨hfull, hset⟩ := full_and_setOvfb_eq_self hinv hflag
    exact ⟨hfull, (execPutb_of_full a s hfull.ge).trans (congrArg _ hset)⟩

/-- Settles O31: by the value of the symbol, which is the entry that contains it, and by room in the decode buffer; after
an overflow a valid symbol finds the buffer full and the flag and mark already set. -/
theorem putsAppendsValidSymbols : Obligations.PutsAppendsValidSymbols := by
  unfold Obligations.PutsAppendsValidSymbols
  intro a s
  rw [← argSymbol_eq_ofNat]
  refine ⟨fun hinvalid => ?_, fun v hmem => ?_, fun hinv hflag => ?_⟩
  · exact execPuts_of_invalid a s ((valOf_eq_none_iff _).mpr hinvalid)
  · have hv : valOf (argSymbol a) = some v := (valOf_eq_some_iff _ v).mpr hmem
    exact ⟨execPuts_of_lt a s v hv, fun hfull => ⟨true, execPuts_of_full a s v hv hfull⟩⟩
  · obtain ⟨hfull, hset⟩ := full_and_setOvfd_eq_self hinv hflag
    exact ⟨hfull, execPuts_of_overflowed a hfull.ge hset⟩

end Sys2Proof.Machine
end

section
/-! PROOFS (spec/44_control_ops.md). NOP, STAT and ABORT: none of them reads its argument or branches on the state, so each
is one equation. -/

namespace Sys2Proof.Machine

/-! ### What each command does -/

/-- An appended response changes the queue alone (R11, R23). -/
theorem emit_eq (w : ResponseWord) (s : State) : emit w s = { s with rq := s.rq ++ [w] } := rfl

/-- STAT emits the status word of the state that it finds (R84). -/
theorem exec_stat (a : Arg) (s : State) : exec (.stat a) s = .next (emit (resultWord 0xA true 0 (statusWord s)) s) := rfl

/-- Discarding both messages and clearing ILL leaves empty buffers and no flag, and keeps everything else (R85). -/
theorem clearIll_emptyBuffers (s : State) :
    clearIll (emptyDecodeBuffer (emptyEncodeBuffer s)) = { s with eb := [], db := [], flags := ⟨false, false, false⟩ } :=
  rfl

/-- ABORT discards both messages, clears all flags and then emits (R85). -/
theorem exec_abort (a : Arg) (s : State) : exec (.abort a) s =
    .next (emit (resultWord 0xB true 0 0) { s with eb := [], db := [], flags := ⟨false, false, false⟩ }) := by
  rw [← clearIll_emptyBuffers]
  rfl

/-! ### The statements -/

/-- Settles O40: NOP answers the state that it was given. -/
theorem nopChangesNothing : Obligations.NopChangesNothing := by
  unfold Obligations.NopChangesNothing
  intro arg s
  show execNop arg s = .next s
  rfl

/-- Settles O41: the emitted word is STATUS, which is the concatenation of its fields, and emitting changes only the
queue. -/
theorem statAnswersStatus : Obligations.StatAnswersStatus := by
  unfold Obligations.StatAnswersStatus
  intro arg s
  rw [exec_stat, emit_eq, statusWord]

/-- Settles O43: the buffers and flags are cleared before the response is emitted, and neither step drops a queued
response. -/
theorem abortClearsBuffersAndFlags : Obligations.AbortClearsBuffersAndFlags := by
  unfold Obligations.AbortClearsBuffersAndFlags
  intro arg s
  rw [exec_abort, emit_eq]

end Sys2Proof.Machine
end

section
/-! PROOFS (spec/30_encoding.md sections 2 to 4). The fields of command words and of response words, and the argument bits
that an operation reads. -/

namespace Sys2Proof.Machine

/-! ### Command words (R45, R47) -/

/-- The opcode and the argument of a command determine it. -/
theorem instrOf_opcode_arg (i : Instr) : instrOf i.opcode i.arg = i := by
  cases i <;> simp [instrOf, Instr.opcode, Instr.arg]

/-- The bits of an opcode that the decoder looks at are all of its bits. -/
theorem opcode_instrOf (op : Opcode) (a : Arg) : (instrOf op a).opcode = op := by
  have hbits : ∀ op : Opcode, ((instrOf op 0).opcode : Opcode) = op := by decide
  have harg : (instrOf op a).opcode = (instrOf op 0).opcode := by
    unfold instrOf
    split <;> rfl
  rw [harg, hbits]

theorem arg_instrOf (op : Opcode) (a : Arg) : (instrOf op a).arg = a := by
  unfold instrOf
  split <;> rfl

/-- A word whose two fields are given decodes to the command that they name. -/
theorem decode_append (op : Opcode) (a : Arg) : decode (op ++ a) = instrOf op a := by
  rw [decode, Laws.OpcodeRow.op_append, Laws.OpcodeRow.arg_append]

theorem decode_encode (i : Instr) : decode (encode i) = i := by
  rw [encode, decode_append, instrOf_opcode_arg]

/-- The two fields of a command word are all of its bits. -/
theorem opField_append_argField (w : CommandWord) : opField w ++ argField w = w :=
  BitVec.extractLsb'_append_extractLsb'_eq_extractLsb' (by rfl) |>.trans BitVec.extractLsb'_eq_self

theorem encode_decode (w : CommandWord) : encode (decode w) = w := by
  rw [encode, decode, opcode_instrOf, arg_instrOf, opField_append_argField]

/-- Settles O1: the opcode field and the argument field are all of a command word, and they determine the command. -/
theorem decodeEncodeRoundTrip : Obligations.DecodeEncodeRoundTrip := by
  unfold Obligations.DecodeEncodeRoundTrip
  exact ⟨decode_encode, encode_decode⟩

/-- Settles O2: the decoder reads the opcode from the upper four bits and hands on the rest. -/
theorem opcodeSelectsOperation : Obligations.OpcodeSelectsOperation := by
  unfold Obligations.OpcodeSelectsOperation
  intro a
  simp only [decode_append]
  simp [instrOf]

/-- Settles O3: closed words, each decoded by evaluation. -/
theorem specWordsDecode : Obligations.SpecWordsDecode := by
  unfold Obligations.SpecWordsDecode
  decide

/-! ### Response words (R44) -/

/-- Settles O4: the three constructors are one concatenation with the kind 0, 1 or 2. -/
theorem responseWordFields : Obligations.ResponseWordFields := by
  unfold Obligations.ResponseWordFields
  intro op ok cnt d
  simp only [resultWord_eq, dataWord_eq, doneWord_eq]
  simp

/-! ### The bits of the argument that an operation reads (R48) -/

/-- The low `n` bits of an argument are its number modulo `2 ^ n`. -/
theorem extractLsb'_zero_congr {n : Nat} {a b : Arg} (h : a.toNat % 2 ^ n = b.toNat % 2 ^ n) :
    a.extractLsb' 0 n = b.extractLsb' 0 n := by
  apply BitVec.eq_of_toNat_eq
  simpa only [BitVec.extractLsb'_toNat, Nat.shiftRight_zero] using h

theorem eq_of_toNat_mod_eq {a b : Arg} (h : a.toNat % 2 ^ 64 = b.toNat % 2 ^ 64) : a = b := by
  rw [Nat.mod_eq_of_lt a.isLt, Nat.mod_eq_of_lt b.isLt] at h
  exact BitVec.eq_of_toNat_eq h

/-- A command is the constructor of its opcode, so another command of the same opcode differs in the argument alone. -/
theorem eq_instrOf_of_opcode_eq {i j : Instr} (h : i.opcode = j.opcode) : j = instrOf i.opcode j.arg := by
  rw [h, instrOf_opcode_arg]

/-- Two arguments that agree on the bits that a command reads have one effect. -/
theorem exec_congr_of_bitsRead (i : Instr) (b : Arg) (s : State)
    (h : i.arg.toNat % 2 ^ i.bitsRead = b.toNat % 2 ^ i.bitsRead) : exec i s = exec (instrOf i.opcode b) s := by
  cases i with
  | nop | endb | ends | stat | abort | reservedC | reservedD | reservedE | reservedF =>
    simp only [instrOf, Instr.opcode, BitVec.reduceGetLsb]
    rfl
  | encd a | dset a | decc a =>
    obtain rfl : a = b := eq_of_toNat_mod_eq h
    simp [instrOf, Instr.opcode]
  | encc a =>
    have hchunk : argChunk a = argChunk b := extractLsb'_zero_congr h
    simp [instrOf, Instr.opcode, exec, execEncc, hchunk]
  | decd a | puts a =>
    have hsymbol : argSymbol a = argSymbol b := extractLsb'_zero_congr h
    simp [instrOf, Instr.opcode, exec, execDecd, execPuts, hsymbol]
  | putb a =>
    have hbyte : argByte a = argByte b := extractLsb'_zero_congr h
    simp [instrOf, Instr.opcode, exec, execPutb, hbyte]

/-- Settles O5: the other command is the same constructor, and each meaning reads its operand from the low bits. -/
theorem unreadArgumentBitsIgnored : Obligations.UnreadArgumentBitsIgnored := by
  unfold Obligations.UnreadArgumentBitsIgnored
  intro i j s hop hlow
  rw [eq_instrOf_of_opcode_eq hop]
  exact exec_congr_of_bitsRead i j.arg s hlow

end Sys2Proof.Machine
end

section
/-! PROOFS (spec/30_encoding.md section 5). The assembler: the examples of R49, and the three printed lines, which read back
as the lines that they print. -/

namespace Sys2Proof.Machine

/-! ### Lines -/

theorem assemble_of_readLine {line : List Char} {l : AsmLine} (h : readLine line = some (some l)) :
    assemble [line] = assembleLine l := by
  simp only [assemble, h]
  cases assembleLine l with
  | none => rfl
  | some ws => exact congrArg some (List.append_nil ws)

theorem map_decode_map_encode (is : List Instr) : (is.map encode).map decode = is := by
  rw [List.map_map]
  exact (List.map_congr_left fun i _ => decode_encode i).trans (List.map_id is)

/-- The words of an ENCBIN line decode to its commands. -/
theorem decode_assembleLine_encbin (b : List Byte) : (assembleLine (.encbin b)).map (List.map decode) =
    some (b.map (fun x => .putb (x.setWidth 64)) ++ [.endb 0]) :=
  congrArg some (map_decode_map_encode (encbinCommands b))

/-- The words of a DECBIN line decode to its commands. -/
theorem decode_assembleLine_decbin (text : List Symbol) : (assembleLine (.decbin text)).map (List.map decode) =
    some (text.map (fun c => .puts (c.setWidth 64)) ++ [.ends 0]) :=
  congrArg some (map_decode_map_encode (decbinCommands text))

/-! ### The line `.cmd` -/

/-- A line `.cmd 0x` followed by 17 digits and nothing else. -/
theorem readLine_cmd {ds : List Char} {n : Nat} (h : readNumber 16 ds = some (n, [])) (hlen : ds.length = 17) :
    readLine (['.', 'c', 'm', 'd', ' ', '0', 'x'] ++ ds) = some (some (.raw (BitVec.ofNat 68 n))) := by
  simp [readLine, atEnd, skipBlanks, h, hlen]

/-- The 17 digits of a command word are the word. -/
theorem readLine_cmdText (w : CommandWord) : readLine (cmdText w) = some (some (.raw w)) := by
  have hdigits := readNumber_hexDigits (splitLanes 4 17 w) [] (by simp [splitLanes]) nofun
  rw [laneNumber_splitLanes, Nat.mod_eq_of_lt w.isLt, List.append_nil] at hdigits
  have hline := readLine_cmd hdigits (by rw [List.length_map, length_splitLanes])
  rwa [BitVec.ofNat_toNat, BitVec.setWidth_eq] at hline

/-! ### The line ENCBIN -/

theorem operandByte_toNat (b : Byte) : operandByte (.num b.toNat) = some b := by
  simp [operandByte, show b.toNat < 256 from b.isLt]

theorem skipBlanks_showByte (b : Byte) (rest : List Char) : skipBlanks (showByte b ++ rest) = showByte b ++ rest := by
  simp [showByte, skipBlanks]

/-- A printed byte at the end of the line. -/
theorem readBytes_last (fuel : Nat) (b : Byte) : readBytes (fuel + 1) (showByte b) = some [b] := by
  have hblank := skipBlanks_showByte b []
  have hoperand := readOperand_showByte b [] nofun
  rw [List.append_nil] at hblank hoperand
  simp only [readBytes, hblank, hoperand, operandByte_toNat]
  rfl

/-- A printed byte, a comma and a blank in front of other bytes. -/
theorem readBytes_comma {fuel : Nat} (b : Byte) {more : List Char} {bs : List Byte} (h : readBytes fuel more = some bs) :
    readBytes (fuel + 1) (showByte b ++ [',', ' '] ++ more) = some (b :: bs) := by
  have hcomma : ∀ c, (',' :: ' ' :: more).head? = some c → hexValue c = none := by
    rintro c ⟨⟩
    decide
  have hblank : readBytes fuel (' ' :: more) = readBytes fuel more := by
    cases fuel with
    | zero => rfl
    | succ fuel => simp [readBytes, skipBlanks]
  have hskip : skipBlanks (',' :: ' ' :: more) = ',' :: ' ' :: more := by simp [skipBlanks]
  rw [List.append_assoc, List.cons_append, List.cons_append, List.nil_append]
  simp only [readBytes, skipBlanks_showByte, readOperand_showByte b _ hcomma, operandByte_toNat, hskip, hblank, h,
    Option.map_some]

/-- The printed bytes of a list that is not empty, separated by commas, read back. -/
theorem readBytes_intercalate (b : Byte) (bs : List Byte) {fuel : Nat} (h : bs.length < fuel) :
    readBytes fuel ([',', ' '].intercalate ((b :: bs).map showByte)) = some (b :: bs) := by
  induction bs generalizing b fuel with
  | nil =>
    obtain ⟨fuel, rfl⟩ := Nat.exists_eq_add_one_of_ne_zero (Nat.ne_zero_of_lt h)
    rw [List.map_cons, List.map_nil, List.intercalate_singleton]
    exact readBytes_last fuel b
  | cons c bs ih =>
    obtain ⟨fuel, rfl⟩ := Nat.exists_eq_add_one_of_ne_zero (Nat.ne_zero_of_lt h)
    rw [List.map_cons, List.map_cons, List.intercalate_cons_cons, ← List.map_cons]
    exact readBytes_comma b (ih c (by simpa using h))

/-- The printed list is longer than the list, so the line is fuel enough. -/
theorem length_lt_length_intercalate (b : Byte) (bs : List Byte) :
    bs.length < ([',', ' '].intercalate ((b :: bs).map showByte)).length := by
  induction bs generalizing b with
  | nil => simp [showByte]
  | cons c bs ih =>
    rw [List.map_cons, List.map_cons, List.intercalate_cons_cons, ← List.map_cons, List.length_append, List.length_cons]
    have htail := ih c
    simp only [List.length_append, List.length_cons, List.length_nil]
    omega

/-- The line ENCBIN with printed bytes. -/
theorem readLine_encbinText (b : List Byte) : readLine (encbinText b) = some (some (.encbin b)) := by
  cases b with
  | nil => decide
  | cons x xs =>
    have hbytes := readBytes_intercalate x xs (length_lt_length_intercalate x xs)
    obtain ⟨cs, hcs⟩ : ∃ cs, [',', ' '].intercalate ((x :: xs).map showByte) = '0' :: cs := by
      cases xs with
      | nil => exact ⟨_, rfl⟩
      | cons y ys => rw [List.map_cons, List.map_cons, List.intercalate_cons_cons]; exact ⟨_, rfl⟩
    rw [encbinText, hcs]
    rw [hcs] at hbytes
    simp only [List.length_cons] at hbytes
    simp [readLine, atEnd, skipBlanks, hbytes]

/-! ### The line DECBIN -/

theorem mapM_symbolOf {text : List Char} (h : ∀ c ∈ text, c.toNat < 128) :
    text.mapM symbolOf = some (text.map fun c => BitVec.ofNat 8 c.toNat) := by
  induction text with
  | nil => rfl
  | cons c text ih =>
    obtain ⟨hc, htext⟩ := List.forall_mem_cons.mp h
    rw [List.mapM_cons, symbolOf, if_pos hc, ih htext]
    rfl

/-- A text in double quotes. -/
theorem readOperand_quoted {text : List Char} (h : ∀ c ∈ text, c.toNat < 128 ∧ c ≠ '"') :
    readOperand ('"' :: (text ++ ['"'])) = some (.str (text.map fun c => BitVec.ofNat 8 c.toNat), []) := by
  have hinside : ∀ c ∈ text, decide (c ≠ '"') = true := fun c hc => decide_eq_true (h c hc).2
  have htake : (text ++ ['"']).takeWhile (fun c => decide (c ≠ '"')) = text := by
    rw [List.takeWhile_append_of_pos hinside]
    simp
  have hdrop : (text ++ ['"']).dropWhile (fun c => decide (c ≠ '"')) = ['"'] := by
    rw [List.dropWhile_append_of_pos hinside]
    simp
  simp only [readOperand, hdrop, htake, mapM_symbolOf fun c hc => (h c hc).1, Option.map_some]

/-- The line DECBIN with a quoted text. -/
theorem readLine_decbinText {text : List Char} (h : ∀ c ∈ text, c.toNat < 128 ∧ c ≠ '"') :
    readLine (decbinText text) = some (some (.decbin (text.map fun c => BitVec.ofNat 8 c.toNat))) := by
  have hoperand := readOperand_quoted h
  simp [readLine, decbinText, atEnd, skipBlanks, hoperand]

/-- Settles O6: the examples are closed; a printed word, byte or text reads back, and the words of a line decode to its
commands. -/
theorem assemblerFormsAndExpansions : Obligations.AssemblerFormsAndExpansions := by
  unfold Obligations.AssemblerFormsAndExpansions
  refine ⟨by decide, by decide, by decide, by decide, by decide, by decide, by decide, fun w => ?_, fun b => ?_,
    fun text htext => ?_, decode_assembleLine_encbin, decode_assembleLine_decbin⟩
  · rw [assemble_of_readLine (readLine_cmdText w), assembleLine]
  · rw [assemble_of_readLine (readLine_encbinText b), decode_assembleLine_encbin]
  · have hwiden : ∀ c ∈ text, (BitVec.ofNat 8 c.toNat).setWidth 64 = BitVec.ofNat 64 c.toNat := fun c hc =>
      BitVec.setWidth_ofNat_of_le_of_lt (by decide) ((htext c hc).1.trans (by decide))
    have hputs := List.map_congr_left fun c hc => congrArg Instr.puts (hwiden c hc)
    rw [assemble_of_readLine (readLine_decbinText htext), decode_assembleLine_decbin, List.map_map, ← hputs]
    rfl

end Sys2Proof.Machine
end

section
/-! PROOFS (spec/40_digit_ops.md, spec/42_chunk_ops.md section 3). The answers of DSET and DECC, and the five commands that
answer from their argument alone. -/

namespace Sys2Proof.Machine

/-! ### DSET -/

/-- The lanes of an entry, the least significant one first, are its symbols and then zeros: 32 entries of at most 4. -/
theorem lanes_joinLanes_reverse_entryOf (i : Digit) :
    (List.range 8).map (fun j => (joinLanes 64 (entryOf i).reverse : Data).extractLsb' (8 * j) 8) =
      entryOf i ++ List.replicate (8 - (entryOf i).length) 0 := by
  revert i
  decide +kernel

/-- The first of these lanes is the canonical symbol. -/
theorem extractLsb'_joinLanes_reverse_entryOf (i : Digit) :
    (joinLanes 64 (entryOf i).reverse : Data).extractLsb' 0 8 = canonOf i := by
  have hlanes := congrArg List.head? (lanes_joinLanes_reverse_entryOf i)
  rw [List.head?_append, head?_entryOf] at hlanes
  exact Option.some.inj hlanes

theorem exec_dset_of_lt (a : Arg) (s : State) (h : a.toNat < 32) : exec (.dset a) s =
    .next (emit (resultWord 0x3 true (BitVec.ofNat 4 (entryOf (argDigit a)).length)
      (joinLanes 64 (entryOf (argDigit a)).reverse)) s) := by
  simp only [exec, execDset, if_pos ((argInRange_iff a).mpr h)]

theorem exec_dset_of_ge (a : Arg) (s : State) (h : 32 ≤ a.toNat) :
    exec (.dset a) s = .next (emit (absentWord 0x3) s) := by
  simp only [exec, execDset, if_neg (mt (argInRange_iff a).mp (Nat.not_lt.mpr h))]

/-- Settles O11: the table's own order is an order of the entry, with the canonical symbol first. -/
theorem dsetAnswersEntry : Obligations.DsetAnswersEntry := by
  unfold Obligations.DsetAnswersEntry
  intro a s
  rw [← argDigit_eq_ofNat]
  refine ⟨fun h => ?_, exec_dset_of_ge a s⟩
  exact ⟨_, exec_dset_of_lt a s (Nat.lt_succ_of_le h), extractLsb'_joinLanes_reverse_entryOf _, _, .refl _,
    lanes_joinLanes_reverse_entryOf _⟩

/-! ### Commands that answer from their argument -/

/-- Settles O13: the word of the response is built from the argument, before the state is looked at. -/
theorem pureCommandsDependOnArgumentAlone : Obligations.PureCommandsDependOnArgumentAlone := by
  unfold Obligations.PureCommandsDependOnArgumentAlone
  intro a i hi
  simp only [List.mem_cons, List.not_mem_nil, or_false] at hi
  rcases hi with rfl | rfl | rfl | rfl | rfl
  case inr.inl =>
    cases hv : valOf (argSymbol a) with
    | none => exact ⟨_, fun s => exec_decd_of_invalid a s hv⟩
    | some v => exact ⟨_, fun s => exec_decd_of_mem a s ((valOf_eq_some_iff _ v).mp hv)⟩
  all_goals exact ⟨_, fun _ => rfl⟩

/-! ### DECC -/

/-- Settles O20: the value of 8 symbols fits the chunk, so widening it to the data field shows the codec's number. -/
theorem deccAnswersDecodedGroup : Obligations.DeccAnswersDecodedGroup := by
  unfold Obligations.DeccAnswersDecodedGroup
  intro a s g m
  have hg : argGroup a = g := rfl
  have hdec : decGroupCnt (argGroup a) = ((decGroupCnt (argGroup a)).1, m) :=
    Prod.ext rfl (by rw [hg, decGroupCnt_snd])
  have hvalue : (decGroupCnt (argGroup a)).1.setWidth 64 = BitVec.ofNat 64 (intDec g) := by
    rw [hg, ← decGroupCnt_toNat_eq_intDec (show g.length ≤ 8 from le_rfl), BitVec.ofNat_toNat]
  rw [exec_decc_of_decGroupCnt hdec s, hvalue]
  rfl

end Sys2Proof.Machine
end

section
/-! PROOFS (spec/43_message_ops.md section 1). The message functions of the source. A coded and a decoded message are
sequences of lanes of known length with the number of the message, and lanes are determined by their length and number. -/

namespace Sys2Proof.Machine

/-! ### Lanes determined by their number -/

/-- Two sequences of lanes of one length and one number are equal. -/
theorem eq_of_laneNumber_eq {w : Nat} {l r : List (BitVec w)} (hlen : l.length = r.length)
    (hnum : laneNumber l = laneNumber r) : l = r := by
  have hjoin : joinLanes (w * r.length) r = joinLanes (w * r.length) l := by
    rw [joinLanes_eq_ofNat, joinLanes_eq_ofNat, hnum]
  have hl := splitLanes_joinLanes (m := w * r.length) l (by rw [hlen])
  rw [← hl, ← hjoin, hlen, splitLanes_joinLanes r le_rfl]

/-- Joining the lanes of `l` in a vector that they fill and cutting it into lanes of another width keeps the number. -/
theorem laneNumber_splitLanes_joinLanes {w w' m k : Nat} {l : List (BitVec w)} (hl : w * l.length = m)
    (hm : w' * k = m) : laneNumber (splitLanes w' k (joinLanes m l)) = laneNumber l := by
  rw [laneNumber_splitLanes, hm, Nat.mod_eq_of_lt (BitVec.isLt _), joinLanes_toNat l hl.le]

/-- The groups of `n` lanes cut one by one into `k` lanes of another width. -/
def regroup {w : Nat} (m w' k : Nat) (gs : List (List (BitVec w))) : List (BitVec w') :=
  gs.flatMap fun g => splitLanes w' k (joinLanes m g)

theorem length_regroup {w m w' k : Nat} (gs : List (List (BitVec w))) :
    (regroup m w' k gs).length = k * gs.length := by
  simp [regroup, List.length_flatMap, length_splitLanes, Nat.mul_comm]

theorem length_flatten_of_length_eq {α : Type} {n : Nat} {gs : List (List α)} (h : ∀ g ∈ gs, g.length = n) :
    gs.flatten.length = n * gs.length := by
  rw [List.length_flatten, List.map_congr_left (g := fun _ => n) h, List.map_const', List.sum_replicate, smul_eq_mul,
    Nat.mul_comm]

/-- Cutting the groups anew keeps the number of the whole sequence. -/
theorem laneNumber_regroup {w m w' k n : Nat} {gs : List (List (BitVec w))} (hn : w * n = m) (hk : w' * k = m)
    (hgs : ∀ g ∈ gs, g.length = n) : laneNumber (regroup m w' k gs) = laneNumber gs.flatten := by
  induction gs with
  | nil => rfl
  | cons g gs ih =>
    obtain ⟨hg, hgs⟩ := List.forall_mem_cons.mp hgs
    have hweight : w' * (regroup m w' k gs).length = w * gs.flatten.length := by
      rw [length_regroup, length_flatten_of_length_eq hgs, ← Nat.mul_assoc, ← Nat.mul_assoc, hk, hn]
    rw [List.flatten_cons, laneNumber_append, regroup, List.flatMap_cons, laneNumber_append]
    rw [← regroup, ih hgs, hweight, laneNumber_splitLanes_joinLanes (by rw [hg, hn]) hk]

/-! ### The groups of a message (R34, R35) -/

/-- The 5-byte groups of a binary message, padded in front. -/
def byteGroups (b : List Byte) : List (List Byte) :=
  groupsOf 5 ((b.length + padB b.length) / 5) (List.replicate (padB b.length) 0 ++ b)

/-- The 8-digit groups of a text message, padded in front. -/
def digitGroups (d : List Digit) : List (List Digit) :=
  groupsOf 8 ((d.length + padD d.length) / 8) (List.replicate (padD d.length) 0 ++ d)

theorem length_padded_bytes (b : List Byte) :
    (List.replicate (padB b.length) 0 ++ b).length = 5 * ((b.length + padB b.length) / 5) := by
  rw [padB_spec, List.length_append, List.length_replicate, Nat.add_comm]

theorem length_padded_digits (d : List Digit) :
    (List.replicate (padD d.length) 0 ++ d).length = 8 * ((d.length + padD d.length) / 8) := by
  rw [padD_spec, List.length_append, List.length_replicate, Nat.add_comm]

theorem length_of_mem_byteGroups {b g : List Byte} (h : g ∈ byteGroups b) : g.length = 5 :=
  length_of_mem_groupsOf 5 _ _ (length_padded_bytes b) g h

theorem length_of_mem_digitGroups {d g : List Digit} (h : g ∈ digitGroups d) : g.length = 8 :=
  length_of_mem_groupsOf 8 _ _ (length_padded_digits d) g h

theorem flatten_byteGroups (b : List Byte) : (byteGroups b).flatten = List.replicate (padB b.length) 0 ++ b :=
  flatten_groupsOf 5 _ _ (length_padded_bytes b)

theorem flatten_digitGroups (d : List Digit) : (digitGroups d).flatten = List.replicate (padD d.length) 0 ++ d :=
  flatten_groupsOf 8 _ _ (length_padded_digits d)

theorem length_byteGroups (b : List Byte) : (byteGroups b).length = (b.length + 4) / 5 := by
  rw [byteGroups, length_groupsOf]
  unfold padB
  omega

theorem length_digitGroups (d : List Digit) : (digitGroups d).length = (d.length + 7) / 8 := by
  rw [digitGroups, length_groupsOf]
  unfold padD
  omega

/-! ### EncBin (R70) -/

/-- The digits of a coded message: the bytes of each group as 8 lanes of 5 bits. -/
def encDigits (b : List Byte) : List Digit := regroup 40 5 8 (byteGroups b)

theorem length_encDigits (b : List Byte) : (encDigits b).length = 8 * ((b.length + 4) / 5) := by
  rw [encDigits, length_regroup, length_byteGroups]

theorem laneNumber_encDigits (b : List Byte) : laneNumber (encDigits b) = laneNumber b := by
  rw [encDigits, laneNumber_regroup (m := 40) (n := 5) rfl rfl fun _ => length_of_mem_byteGroups, flatten_byteGroups,
    laneNumber_replicate_zero_append]

/-- The group of symbols that codes 5 bytes. -/
theorem encChunkRef_packNat {g : List Byte} (h : g.length = 5) : encChunkRef (packNat g) = encChunk (joinLanes 40 g) := by
  rw [← toNat_joinLanes_eq_packNat g h, encChunkRef_toNat]

theorem encBin_eq_flatMap (b : List Byte) : encBin b = (byteGroups b).flatMap fun g => encChunk (joinLanes 40 g) :=
  List.flatMap_congr fun _ hg => encChunkRef_packNat (length_of_mem_byteGroups hg)

/-- EncBin writes the digits in canonical symbols. -/
theorem encBin_eq_map_canonOf (b : List Byte) : encBin b = (encDigits b).map canonOf := by
  rw [encBin_eq_flatMap, encDigits, regroup, List.map_flatMap]
  rfl

theorem filterMap_valOf_encBin (b : List Byte) : (encBin b).filterMap valOf = encDigits b := by
  rw [encBin_eq_map_canonOf, filterMap_valOf_map_canonOf]

/-! ### DecBin (R71) -/

/-- The bytes of a sequence of digits: the digits of each group as 5 lanes of 8 bits. -/
def decBytes (d : List Digit) : List Byte := regroup 40 8 5 (digitGroups d)

theorem length_decBytes (d : List Digit) : (decBytes d).length = 5 * ((d.length + 7) / 8) := by
  rw [decBytes, length_regroup, length_digitGroups]

theorem laneNumber_decBytes (d : List Digit) : laneNumber (decBytes d) = laneNumber d := by
  rw [decBytes, laneNumber_regroup (m := 40) (n := 8) rfl rfl fun _ => length_of_mem_digitGroups, flatten_digitGroups,
    laneNumber_replicate_zero_append]

/-- The value of a valid symbol. -/
def digitOf (c : Symbol) : Digit := (valOf c).getD 0

/-- The values of valid symbols, one by one. -/
theorem filterMap_valOf_eq_map_digitOf {s : List Symbol} (h : ∀ c ∈ s, isValid c = true) :
    s.filterMap valOf = s.map digitOf := by
  induction s with
  | nil => rfl
  | cons c s ih =>
    obtain ⟨hc, hs⟩ := List.forall_mem_cons.mp h
    obtain ⟨v, hv⟩ := Option.isSome_iff_exists.mp hc
    rw [List.filterMap_cons_some hv, List.map_cons, ih hs, digitOf, hv]
    rfl

/-- The 5 bytes that a group of valid symbols decodes to. -/
theorem unpackNat_intDec {g : List Symbol} (hlen : g.length = 8) (hvalid : ∀ c ∈ g, isValid c = true) :
    unpackNat (intDec g) = splitLanes 8 5 (joinLanes 40 (g.map digitOf) : Chunk) := by
  rw [intDec_eq_laneNumber, filterMap_valOf_eq_map_digitOf hvalid, ← unpackNat_toNat,
    joinLanes_toNat _ (by rw [List.length_map, hlen])]

theorem digitOf_canonOf (v : Digit) : digitOf (canonOf v) = v := by rw [digitOf, valOf_canonOf]; rfl

/-- A text without invalid symbols: the groups of its symbols are the groups of its values. -/
theorem decBin_of_valid {t : List Symbol} (h : ∀ c ∈ t, isValid c = true) : decBin t = decBytes (t.map digitOf) := by
  have hlen := length_padded_digits (t.map digitOf)
  simp only [decBin, decBytes, regroup, digitGroups, List.filter_eq_self.mpr h, List.length_map] at hlen ⊢
  generalize hk : (t.length + padD t.length) / 8 = k at hlen ⊢
  generalize hp : List.replicate (padD t.length) (canonOf 0) ++ t = padded
  have hdigits : List.replicate (padD t.length) 0 ++ t.map digitOf = padded.map digitOf := by
    rw [← hp, List.map_append, List.map_replicate, digitOf_canonOf]
  have hvalid : ∀ c ∈ padded, isValid c = true := by
    intro c hc
    rw [← hp] at hc
    rcases List.mem_append.mp hc with hzero | hc
    · rw [List.eq_of_mem_replicate hzero]
      exact isValid_canonOf 0
    · exact h c hc
  rw [hdigits, List.length_map] at hlen
  rw [hdigits, map_groupsOf, List.flatMap_map]
  refine List.flatMap_congr fun g hg => unpackNat_intDec (length_of_mem_groupsOf 8 k padded hlen g hg) fun c hc => ?_
  have hmem : c ∈ (groupsOf 8 k padded).flatten := List.mem_flatten_of_mem hg hc
  rw [flatten_groupsOf 8 k padded hlen] at hmem
  exact hvalid c hmem

/-- DecBin looks at the valid symbols alone. -/
theorem decBin_filter_isValid (s : List Symbol) : decBin (s.filter isValid) = decBin s := by
  simp only [decBin, List.filter_filter, Bool.and_self]

/-- DecBin reads nothing but the values of the valid symbols. -/
theorem decBin_eq_decBytes (s : List Symbol) : decBin s = decBytes (s.filterMap valOf) := by
  have hvalid : ∀ c ∈ s.filter isValid, isValid c = true := fun c hc => List.of_mem_filter hc
  rw [← decBin_filter_isValid, decBin_of_valid hvalid, ← filterMap_valOf_eq_map_digitOf hvalid,
    filterMap_valOf_filter_isValid]

/-! ### The laws of the message functions -/

/-- Decoding an encoded message. -/
theorem decBin_encBin (b : List Byte) : decBin (encBin b) = List.replicate (padB b.length) 0 ++ b := by
  rw [decBin_eq_decBytes, filterMap_valOf_encBin]
  apply eq_of_laneNumber_eq
  · rw [length_decBytes, length_encDigits, List.length_append, List.length_replicate, padB]
    omega
  · rw [laneNumber_decBytes, laneNumber_encDigits, laneNumber_replicate_zero_append]

/-- The digits of a decoded text, encoded again. -/
theorem encDigits_decBytes (d : List Digit) : encDigits (decBytes d) = List.replicate (padD d.length) 0 ++ d := by
  apply eq_of_laneNumber_eq
  · rw [length_encDigits, length_decBytes, List.length_append, List.length_replicate, padD]
    omega
  · rw [laneNumber_encDigits, laneNumber_decBytes, laneNumber_replicate_zero_append]

/-- Messages whose codes have the same length and number have the same code. -/
theorem encBin_congr {b c : List Byte} (hlen : (b.length + 4) / 5 = (c.length + 4) / 5)
    (hnum : laneNumber b = laneNumber c) : encBin b = encBin c := by
  rw [encBin_eq_map_canonOf, encBin_eq_map_canonOf]
  congr 1
  apply eq_of_laneNumber_eq
  · rw [length_encDigits, length_encDigits, hlen]
  · rw [laneNumber_encDigits, laneNumber_encDigits, hnum]

/-- Equal codes have equal numbers. -/
theorem laneNumber_eq_of_encBin_eq {b c : List Byte} (h : encBin b = encBin c) : laneNumber b = laneNumber c := by
  have hdigits := congrArg (List.filterMap valOf) h
  rw [filterMap_valOf_encBin, filterMap_valOf_encBin] at hdigits
  rw [← laneNumber_encDigits, hdigits, laneNumber_encDigits]

/-- The coded message is the padded numeral of its number (law (e)). -/
theorem encBin_eq_padded_intEnc {b : List Byte} (hne : b ≠ []) : encBin b =
    List.replicate (8 * ((b.length + 4) / 5) - (intEnc (packNat b : Nat)).length) (canonOf 0) ++
      intEnc (packNat b : Nat) := by
  obtain ⟨ds, hds⟩ := exists_intEnc_eq_map_canonOf (packNat b)
  have hpos : 0 < b.length := List.length_pos_iff.mpr hne
  have hnum : laneNumber ds = packNat b := by rw [← intDec_map_canonOf, ← hds, intDec_intEnc, Int.natAbs_natCast]
  have hfit : ds.length ≤ 8 * ((b.length + 4) / 5) := by
    rw [← List.length_map (f := canonOf), ← hds, length_intEnc_le_iff _ (by omega), Int.natAbs_natCast]
    calc packNat b < 2 ^ (8 * b.length) := laneNumber_lt b
      _ ≤ 2 ^ (5 * (8 * ((b.length + 4) / 5))) := Nat.pow_le_pow_right (by decide) (by omega)
      _ = _ := pow_mul ..
  rw [hds, List.length_map, encBin_eq_map_canonOf, ← List.map_replicate, ← List.map_append]
  congr 1
  apply eq_of_laneNumber_eq
  · rw [length_encDigits, List.length_append, List.length_replicate, Nat.sub_add_cancel hfit]
  · rw [laneNumber_encDigits, laneNumber_replicate_zero_append, hnum, packNat_eq_laneNumber]

/-! ### The statements -/

/-- Settles O23: the decoded message has the length and the number of the padded one; a multiple of 5 needs no padding. -/
theorem messageRoundTrip : Obligations.MessageRoundTrip := by
  unfold Obligations.MessageRoundTrip
  refine ⟨decBin_encBin, fun b hb => ?_⟩
  rw [decBin_encBin, padB, hb]
  rfl

/-- Settles O24: one group of 8 symbols per group of 5 bytes, and the other way round. -/
theorem messageLengths : Obligations.MessageLengths := by
  unfold Obligations.MessageLengths
  constructor
  · intro b
    rw [encBin_eq_map_canonOf, List.length_map, length_encDigits]
  · intro s
    rw [decBin_eq_decBytes, length_decBytes, length_filterMap_valOf]

/-- Settles O25: DecBin is a function of the values of the valid symbols. -/
theorem decBinIgnoresJunkAliasesAndCase : Obligations.DecBinIgnoresJunkAliasesAndCase := by
  unfold Obligations.DecBinIgnoresJunkAliasesAndCase
  refine ⟨fun s => (decBin_filter_isValid s).symm, fun s t h => ?_⟩
  rw [decBin_eq_decBytes, decBin_eq_decBytes, h]

/-- Settles O26: the digits encoded again have the length and the number of the padded values. -/
theorem reencodingCanonicalises : Obligations.ReencodingCanonicalises := by
  unfold Obligations.ReencodingCanonicalises
  intro s
  rw [decBin_eq_decBytes, encBin_eq_map_canonOf, encDigits_decBytes, List.map_append, List.map_replicate]

/-- Settles O27: both codecs write the digits of one number, and the numeral fits the length of the coded message. -/
theorem wholeNumberView : Obligations.WholeNumberView := by
  unfold Obligations.WholeNumberView
  refine ⟨fun s => ?_, fun b => encBin_eq_padded_intEnc, rfl⟩
  rw [packNat_eq_laneNumber, decBin_eq_decBytes, laneNumber_decBytes, intDec_eq_laneNumber]

/-- Settles O28: a message is determined by its length and number, and leading zeros up to the padding change neither the
number nor the length of the code. -/
theorem encBinInjectivePerLength : Obligations.EncBinInjectivePerLength := by
  unfold Obligations.EncBinInjectivePerLength
  refine ⟨fun b c hlen h => eq_of_laneNumber_eq hlen (laneNumber_eq_of_encBin_eq h), fun b j hj => ?_⟩
  apply encBin_congr
  · unfold padB at hj
    rw [List.length_append, List.length_replicate]
    omega
  · exact laneNumber_replicate_zero_append j b

end Sys2Proof.Machine
end

section
/-! PROOFS (spec/20_memory.md section 5, spec/60_exceptions.md sections 1 and 2). What each command can do to the state, said
once case by case, and what follows from it for every command: totality, the responses, the flags, the mark. -/

namespace Sys2Proof.Machine

/-! ### The cases of a command -/

/-- The responses of ENDB (R76). -/
def endbResponses (s : State) : List ResponseWord :=
  if s.flags.ovfb then refusedMessage 0x7 else codedMessage 0x7 (padB s.eb.length) (encodeBeats s.eb)

/-- The responses of ENDS (R78). -/
def endsResponses (s : State) : List ResponseWord :=
  if s.flags.ovfd then refusedMessage 0x9 else codedMessage 0x9 (padD s.db.length) (decodeBeats s.db)

/-- The commands that answer one RESULT and change nothing else. -/
def AnswersOnly (i : Instr) : Prop :=
  ∃ a, i ∈ [Instr.encd a, .decd a, .dset a, .encc a, .decc a, .stat a]

/-- The commands with a reserved opcode (R86). -/
def IsReserved (i : Instr) : Prop :=
  ∃ a, i ∈ [Instr.reservedC a, .reservedD a, .reservedE a, .reservedF a]

/-- The next states that a command can have from `s`, with the condition of each. -/
inductive Effect (s : State) : Instr → State → Prop where
  | nop (a : Arg) : Effect s (.nop a) s
  | answer {i : Instr} {r : ResponseWord} (only : AnswersOnly i) (wf : rspWellFormed r = true) (op : rspOp r = i.opcode) :
      Effect s i (emit r s)
  | pushByte (a : Arg) (room : s.eb.length < s.params.capB) : Effect s (.putb a) { s with eb := s.eb ++ [argByte a] }
  | dropByte (a : Arg) (full : s.params.capB ≤ s.eb.length) : Effect s (.putb a) (setOvfb s)
  | closeBinary (a : Arg) : Effect s (.endb a) (emptyEncodeBuffer (emitAll (endbResponses s) s))
  | ignoreSymbol (a : Arg) (invalid : valOf (argSymbol a) = none) : Effect s (.puts a) s
  | pushDigit (a : Arg) {v : Digit} (value : valOf (argSymbol a) = some v) (room : s.db.length < s.params.capD) :
      Effect s (.puts a) { s with db := s.db ++ [v] }
  | dropDigit (a : Arg) {v : Digit} (value : valOf (argSymbol a) = some v) (full : s.params.capD ≤ s.db.length) :
      Effect s (.puts a) (setOvfd s)
  | closeText (a : Arg) : Effect s (.ends a) (emptyDecodeBuffer (emitAll (endsResponses s) s))
  | abort (a : Arg) : Effect s (.abort a)
      (emit (resultWord 0xB true 0 0) { s with eb := [], db := [], flags := ⟨false, false, false⟩ })
  | reserved {i : Instr} (which : IsReserved i) : Effect s i (reservedCommand i.opcode s)

theorem rspWellFormed_resultWord (op : Opcode) (ok : Bool) (cnt : BitVec 4) (data : Data) :
    rspWellFormed (resultWord op ok cnt data) =
      ((op ≠ 0x0 && op ≠ 0x6 && op ≠ 0x7 && op ≠ 0x8 && op ≠ 0x9) && (!(op = 0x4 || op = 0xA || op = 0xB) || ok) &&
        (op < 0xC || !ok)) := by
  simp [rspWellFormed, resultWord_eq]

@[simp] theorem rspOp_resultWord (op : Opcode) (ok : Bool) (cnt : BitVec 4) (data : Data) :
    rspOp (resultWord op ok cnt data) = op := by rw [resultWord_eq, rspOp_wordOf]

/-- The one RESULT of a command that only answers has the form of R44; ENCC and STAT answer with `ok = 1`. -/
theorem Effect.result {s : State} {i : Instr} {ok : Bool} (only : AnswersOnly i)
    (hok : i.opcode = 0x4 ∨ i.opcode = 0xA → ok = true) (cnt : BitVec 4) (data : Data) :
    Effect s i (emit (resultWord i.opcode ok cnt data) s) := by
  refine .answer only ?_ (rspOp_resultWord ..)
  obtain ⟨a, ha⟩ := only
  simp only [List.mem_cons, List.not_mem_nil, or_false] at ha
  rw [rspWellFormed_resultWord]
  rcases ha with rfl | rfl | rfl | rfl | rfl | rfl <;> simp_all [Instr.opcode]

/-- Every command has a next state, and it is one of those listed. -/
theorem exec_effect (i : Instr) (s : State) : ∃ t, exec i s = .next t ∧ Effect s i t := by
  cases i with
  | nop a => exact ⟨s, rfl, .nop a⟩
  | encd a =>
    rcases Nat.lt_or_ge a.toNat 32 with h | h
    · exact ⟨_, exec_encd_of_lt a s h, .result ⟨a, by simp⟩ (by simp [Instr.opcode]) _ _⟩
    · exact ⟨_, exec_encd_of_ge a s h, .result ⟨a, by simp⟩ (by simp [Instr.opcode]) _ _⟩
  | decd a =>
    cases hv : valOf (argSymbol a) with
    | none => exact ⟨_, exec_decd_of_invalid a s hv, .result ⟨a, by simp⟩ (by simp [Instr.opcode]) _ _⟩
    | some v =>
      have hmem := (valOf_eq_some_iff _ v).mp hv
      exact ⟨_, exec_decd_of_mem a s hmem, .result ⟨a, by simp⟩ (by simp [Instr.opcode]) _ _⟩
  | dset a =>
    rcases Nat.lt_or_ge a.toNat 32 with h | h
    · exact ⟨_, exec_dset_of_lt a s h, .result ⟨a, by simp⟩ (by simp [Instr.opcode]) _ _⟩
    · exact ⟨_, exec_dset_of_ge a s h, .result ⟨a, by simp⟩ (by simp [Instr.opcode]) _ _⟩
  | encc a => exact ⟨_, rfl, .result ⟨a, by simp⟩ (fun _ => rfl) _ _⟩
  | decc a => exact ⟨_, rfl, .result ⟨a, by simp⟩ (by simp [Instr.opcode]) _ _⟩
  | stat a => exact ⟨_, rfl, .result ⟨a, by simp⟩ (fun _ => rfl) _ _⟩
  | putb a =>
    rcases Nat.lt_or_ge s.eb.length s.params.capB with room | full
    · exact ⟨_, execPutb_of_lt a s room, .pushByte a room⟩
    · exact ⟨_, execPutb_of_full a s full, .dropByte a full⟩
  | puts a =>
    cases hv : valOf (argSymbol a) with
    | none => exact ⟨_, execPuts_of_invalid a s hv, .ignoreSymbol a hv⟩
    | some v =>
      rcases Nat.lt_or_ge s.db.length s.params.capD with room | full
      · exact ⟨_, execPuts_of_lt a s v hv room, .pushDigit a hv room⟩
      · exact ⟨_, execPuts_of_full a s v hv full, .dropDigit a hv full⟩
  | endb a => exact ⟨_, rfl, .closeBinary a⟩
  | ends a => exact ⟨_, rfl, .closeText a⟩
  | abort a => exact ⟨_, exec_abort a s, .abort a⟩
  | reservedC a => exact ⟨_, rfl, .reserved ⟨a, by simp⟩⟩
  | reservedD a => exact ⟨_, rfl, .reserved ⟨a, by simp⟩⟩
  | reservedE a => exact ⟨_, rfl, .reserved ⟨a, by simp⟩⟩
  | reservedF a => exact ⟨_, rfl, .reserved ⟨a, by simp⟩⟩

theorem effect_of_exec {i : Instr} {s t : State} (h : exec i s = .next t) : Effect s i t := by
  obtain ⟨u, hu, heffect⟩ := exec_effect i s
  cases hu.symm.trans h
  exact heffect

/-- The words that a closed message can be answered with have the form of R44 and the opcode of the command. -/
theorem wellFormed_of_mem_endResponses {op : Opcode} (hop : op = 0x7 ∨ op = 0x9) (refused : Bool) (pad : Nat)
    (beats : List Data) {r : ResponseWord}
    (hr : r ∈ if refused then refusedMessage op else codedMessage op pad beats) :
    rspWellFormed r = true ∧ rspOp r = op := by
  have hdata (d : Data) : rspWellFormed (dataWord op d) = true ∧ rspOp (dataWord op d) = op := by
    simpa [rspWellFormed, dataWord_eq] using hop
  have hdone (ok : Bool) (cnt : BitVec 4) (d : Data) :
      rspWellFormed (doneWord op ok cnt d) = true ∧ rspOp (doneWord op ok cnt d) = op := by
    simpa [rspWellFormed, doneWord_eq] using hop
  cases refused with
  | true =>
    obtain rfl : r = doneWord op false 0 0 := by simpa [refusedMessage] using hr
    exact hdone ..
  | false =>
    rcases List.mem_append.mp hr with hbeat | hlast
    · obtain ⟨d, -, rfl⟩ := List.mem_map.mp hbeat
      exact hdata d
    · obtain rfl := List.mem_singleton.mp hlast
      exact hdone ..

/-- A reserved opcode is no operation, and its answer has the form of R44. -/
theorem IsReserved.answer_wellFormed {i : Instr} (h : IsReserved i) :
    i.isOperation = false ∧ rspWellFormed (resultWord i.opcode false 0 0) = true := by
  obtain ⟨a, ha⟩ := h
  simp only [List.mem_cons, List.not_mem_nil, or_false] at ha
  rcases ha with rfl | rfl | rfl | rfl <;> exact ⟨rfl, by rw [rspWellFormed_resultWord]; rfl⟩

namespace Effect

variable {i : Instr} {s t : State}

/-- Every case appends responses of the form of R44 that carry the opcode of the command, and keeps the delivered words,
the coming moves and the capacities. -/
theorem appends (h : Effect s i t) :
    (∃ ws, t.rq = s.rq ++ ws ∧ ∀ r ∈ ws, rspWellFormed r = true ∧ rspOp r = i.opcode) ∧
      t.delivered = s.delivered ∧ t.input = s.input ∧ t.params = s.params := by
  cases h with
  | nop | pushByte | dropByte | ignoreSymbol | pushDigit | dropDigit =>
    exact ⟨⟨[], by simp⟩, rfl, rfl, rfl⟩
  | answer _ wf op => exact ⟨⟨_, rfl, by simp [wf, op]⟩, rfl, rfl, rfl⟩
  | closeBinary => exact ⟨⟨_, rfl, fun _ => wellFormed_of_mem_endResponses (.inl rfl) _ _ _⟩, rfl, rfl, rfl⟩
  | closeText => exact ⟨⟨_, rfl, fun _ => wellFormed_of_mem_endResponses (.inr rfl) _ _ _⟩, rfl, rfl, rfl⟩
  | abort => exact ⟨⟨_, rfl, by simp [rspWellFormed_resultWord, Instr.opcode]⟩, rfl, rfl, rfl⟩
  | reserved which =>
    have hword := which.answer_wellFormed.2
    exact ⟨⟨_, rfl, List.forall_mem_singleton.mpr ⟨hword, rspOp_resultWord ..⟩⟩, rfl, rfl, rfl⟩

/-- Every case keeps the invariant: the buffers grow only with room, and a flag is set only over a full buffer. -/
theorem keeps_inv (h : Effect s i t) (hinv : s.Inv) : t.Inv := by
  obtain ⟨⟨ws, hrq, hws⟩, hdelivered, -, -⟩ := h.appends
  obtain ⟨heb, hdb, hovfb, hovfd, hmark, hqueue, htaken⟩ := hinv
  have hwords : t.rq.all rspWellFormed = true ∧ t.delivered.all rspWellFormed = true := by
    rw [hrq, hdelivered, List.all_append, hqueue, List.all_eq_true.mpr fun r hr => (hws r hr).1]
    exact ⟨rfl, htaken⟩
  suffices hbuffers : t.eb.length ≤ t.params.capB ∧ t.db.length ≤ t.params.capD ∧
      (t.flags.ovfb = true → t.eb.length = t.params.capB) ∧ (t.flags.ovfd = true → t.db.length = t.params.capD) ∧
      ((t.flags.ovfb || t.flags.ovfd || t.flags.ill) = true → t.faulted = true) by
    obtain ⟨h1, h2, h3, h4, h5⟩ := hbuffers
    exact ⟨h1, h2, h3, h4, h5, hwords⟩
  clear hwords hws hrq hdelivered
  cases h with
  | nop | answer | ignoreSymbol => exact ⟨heb, hdb, hovfb, hovfd, hmark⟩
  | pushByte _ room =>
    have hclear : s.flags.ovfb = true → False := fun hset => room.ne (hovfb hset)
    exact ⟨by simpa using room, hdb, fun hset => (hclear hset).elim, hovfd, hmark⟩
  | pushDigit _ _ room =>
    have hclear : s.flags.ovfd = true → False := fun hset => room.ne (hovfd hset)
    exact ⟨heb, by simpa using room, hovfb, fun hset => (hclear hset).elim, hmark⟩
  | dropByte _ full => exact ⟨heb, hdb, fun _ => heb.antisymm full, hovfd, fun _ => rfl⟩
  | dropDigit _ _ full => exact ⟨heb, hdb, hovfb, fun _ => hdb.antisymm full, fun _ => rfl⟩
  | closeBinary =>
    refine ⟨Nat.zero_le _, hdb, nofun, hovfd, fun hset => hmark ?_⟩
    simp at hset ⊢; tauto
  | closeText =>
    refine ⟨heb, Nat.zero_le _, hovfb, nofun, fun hset => hmark ?_⟩
    simp at hset ⊢; tauto
  | abort => exact ⟨Nat.zero_le _, Nat.zero_le _, nofun, nofun, nofun⟩
  | reserved => exact ⟨heb, hdb, hovfb, hovfd, fun _ => rfl⟩

/-- The writers of OVFB (R24). -/
theorem ovfb_writers (h : Effect s i t) (hne : t.flags.ovfb ≠ s.flags.ovfb) :
    (t.flags.ovfb = true ∧ s.params.capB ≤ s.eb.length ∧ ∃ a, i = .putb a) ∨
      (t.flags.ovfb = false ∧ ∃ a, i = .endb a ∨ i = .abort a) := by
  cases h with
  | dropByte a full => exact .inl ⟨rfl, full, a, rfl⟩
  | closeBinary a => exact .inr ⟨rfl, a, .inl rfl⟩
  | abort a => exact .inr ⟨rfl, a, .inr rfl⟩
  | nop | answer | pushByte | ignoreSymbol | pushDigit | dropDigit | closeText | reserved => exact absurd rfl hne

/-- The writers of OVFD (R24). -/
theorem ovfd_writers (h : Effect s i t) (hne : t.flags.ovfd ≠ s.flags.ovfd) :
    (t.flags.ovfd = true ∧ s.params.capD ≤ s.db.length ∧
        ∃ a, i = .puts a ∧ isValid (BitVec.ofNat 8 a.toNat) = true) ∨
      (t.flags.ovfd = false ∧ ∃ a, i = .ends a ∨ i = .abort a) := by
  cases h with
  | dropDigit a value full =>
    rw [argSymbol_eq_ofNat] at value
    exact .inl ⟨rfl, full, a, rfl, Option.isSome_of_mem value⟩
  | closeText a => exact .inr ⟨rfl, a, .inl rfl⟩
  | abort a => exact .inr ⟨rfl, a, .inr rfl⟩
  | nop | answer | pushByte | dropByte | closeBinary | ignoreSymbol | pushDigit | reserved => exact absurd rfl hne

/-- The writers of ILL (R24). -/
theorem ill_writers (h : Effect s i t) (hne : t.flags.ill ≠ s.flags.ill) :
    (t.flags.ill = true ∧ i.isOperation = false) ∨ (t.flags.ill = false ∧ ∃ a, i = .abort a) := by
  cases h with
  | reserved which => exact .inl ⟨rfl, which.answer_wellFormed.1⟩
  | abort a => exact .inr ⟨rfl, a, rfl⟩
  | nop | answer | pushByte | dropByte | closeBinary | ignoreSymbol | pushDigit | dropDigit | closeText =>
    exact absurd rfl hne

/-- A command either sets a flag and with it the mark, or keeps the mark and sets no flag. -/
theorem faulted_cases (h : Effect s i t) :
    (t.faulted = true ∧ (t.flags.ovfb = true ∨ t.flags.ovfd = true ∨ t.flags.ill = true)) ∨
      (t.faulted = s.faulted ∧ (t.flags.ovfb = true → s.flags.ovfb = true) ∧
        (t.flags.ovfd = true → s.flags.ovfd = true) ∧ (t.flags.ill = true → s.flags.ill = true)) := by
  cases h with
  | dropByte => exact .inl ⟨rfl, .inl rfl⟩
  | dropDigit => exact .inl ⟨rfl, .inr (.inl rfl)⟩
  | reserved => exact .inl ⟨rfl, .inr (.inr rfl)⟩
  | nop | answer | pushByte | ignoreSymbol | pushDigit => exact .inr ⟨rfl, id, id, id⟩
  | closeBinary => exact .inr ⟨rfl, nofun, id, id⟩
  | closeText => exact .inr ⟨rfl, id, nofun, id⟩
  | abort => exact .inr ⟨rfl, nofun, nofun, nofun⟩

end Effect

/-! ### Totality and responses -/

theorem move_total (m : HostMove) (s : State) : ∃ t, move m s = .next t := by
  cases m with
  | command w => exact (exec_effect (decode w) s).imp fun _ h => h.1
  | take => exact ⟨_, rfl⟩
  | reset => exact ⟨_, rfl⟩

/-- A step without a move waits. -/
theorem step_of_nil {s : State} (h : s.input = []) : step s = .next s := by simp only [step, h]

/-- A step with a move carries it out. -/
theorem step_of_cons {s : State} {m : HostMove} {rest : List HostMove} (h : s.input = m :: rest) :
    step s = move m { s with input := rest } := by simp only [step, h]

/-- The new responses of a command are what it appends to the queue. -/
theorem newResponses_of_append {i : Instr} {s t : State} {ws : List ResponseWord} (h : exec i s = .next t)
    (hws : t.rq = s.rq ++ ws) : newResponses i s = ws := by
  simp only [newResponses, h, hws, List.drop_left]

theorem length_endbResponses_le (s : State) (h : s.eb.length ≤ s.params.capB) :
    (endbResponses s).length ≤ (s.params.capB + 4) / 5 + 1 := by
  unfold endbResponses
  split
  · exact Nat.le_add_left 1 _
  · rw [length_codedMessage, length_encodeBeats]
    unfold padB
    omega

theorem length_endsResponses_le (s : State) (h : s.db.length ≤ s.params.capD) :
    (endsResponses s).length ≤ (s.params.capD + 7) / 8 + 1 := by
  unfold endsResponses
  split
  · exact Nat.le_add_left 1 _
  · rw [length_codedMessage, length_decodeBeats]
    unfold padD
    omega

/-- Settles O52: every command has one of the cases of `Effect`, and every move runs a command or is an equation. -/
theorem everyStepHasNextState : Obligations.EveryStepHasNextState := by
  unfold Obligations.EveryStepHasNextState
  refine ⟨fun i s => (exec_effect i s).imp fun _ h => h.1, fun s => ?_⟩
  cases hinput : s.input with
  | nil => exact ⟨s, step_of_nil hinput⟩
  | cons m rest => exact (move_total m _).imp fun _ h => (step_of_cons hinput).trans h

/-- Settles O53: what a case of `Effect` appends is what the queue has more. -/
theorem commandsOnlyAppendResponses : Obligations.CommandsOnlyAppendResponses := by
  unfold Obligations.CommandsOnlyAppendResponses
  intro i s t h
  obtain ⟨⟨ws, hrq, hws⟩, hdelivered, hinput, hparams⟩ := (effect_of_exec h).appends
  rw [newResponses_of_append h hrq]
  exact ⟨hrq, hdelivered, hinput, hparams, fun r hr => (hws r hr).2⟩

/-- Settles O54: only ENDB and ENDS emit more than one response, one per group of the buffer and a DONE. -/
theorem responsesPerCommandBounded : Obligations.ResponsesPerCommandBounded := by
  unfold Obligations.ResponsesPerCommandBounded
  intro i s hinv
  obtain ⟨heb, hdb, -⟩ := hinv
  obtain ⟨t, h, heffect⟩ := exec_effect i s
  have hnew {ws : List ResponseWord} (hws : t.rq = s.rq ++ ws) := newResponses_of_append h hws
  cases heffect with
  | nop | pushByte | dropByte | ignoreSymbol | pushDigit | dropDigit => rw [hnew (List.append_nil _).symm]; exact le_rfl
  | closeBinary => rw [hnew rfl]; exact length_endbResponses_le s heb
  | closeText => rw [hnew rfl]; exact length_endsResponses_le s hdb
  | abort => rw [hnew rfl]; exact le_rfl
  | answer only =>
    rw [hnew rfl]
    obtain ⟨a, ha⟩ := only
    simp only [List.mem_cons, List.not_mem_nil, or_false] at ha
    rcases ha with rfl | rfl | rfl | rfl | rfl | rfl <;> exact le_rfl
  | reserved which =>
    rw [hnew rfl]
    obtain ⟨a, ha⟩ := which
    simp only [List.mem_cons, List.not_mem_nil, or_false] at ha
    rcases ha with rfl | rfl | rfl | rfl <;> exact le_rfl

/-! ### The invariant -/

theorem resetWith_inv (p : Params) : (State.resetWith p).Inv :=
  ⟨Nat.zero_le _, Nat.zero_le _, nofun, nofun, nofun, rfl, rfl⟩

/-- The invariant does not speak of the coming moves. -/
theorem inv_of_input {s : State} (input : List HostMove) (h : s.Inv) : { s with input := input }.Inv := h

theorem takeResponse_inv {s : State} (h : s.Inv) : (takeResponse s).Inv := by
  obtain ⟨heb, hdb, hovfb, hovfd, hmark, hqueue, htaken⟩ := h
  have hqueue := List.all_eq_true.mp hqueue
  have hkept : (takeResponse s).rq.all rspWellFormed = true := by
    rw [takeResponse_rq]
    exact List.all_eq_true.mpr fun r hr => hqueue r (List.mem_of_mem_tail hr)
  have hmoved : (takeResponse s).delivered.all rspWellFormed = true := by
    rw [takeResponse_delivered, List.all_append, htaken, Bool.true_and]
    exact List.all_eq_true.mpr fun r hr => hqueue r (List.mem_of_mem_take hr)
  exact ⟨by simpa using heb, by simpa using hdb, by simpa using hovfb, by simpa using hovfd, by simpa using hmark, hkept,
    hmoved⟩

theorem move_keeps_inv {m : HostMove} {s t : State} (hinv : s.Inv) (h : move m s = .next t) : t.Inv := by
  cases m with
  | command w => exact (effect_of_exec h).keeps_inv hinv
  | take => cases h; exact takeResponse_inv hinv
  | reset => cases h; exact inv_of_input s.input (resetWith_inv s.params)

/-- Settles O48: empty buffers, no flag and no response. -/
theorem resetMeetsInvariant : Obligations.ResetMeetsInvariant := by
  unfold Obligations.ResetMeetsInvariant
  exact ⟨resetWith_inv _, resetWith_inv⟩

/-- Settles O49: by the cases of a move; for a command by the cases of `Effect`. -/
theorem stepKeepsInvariant : Obligations.StepKeepsInvariant := by
  unfold Obligations.StepKeepsInvariant
  intro s t hinv h
  cases hinput : s.input with
  | nil => cases (step_of_nil hinput).symm.trans h; exact hinv
  | cons m rest => exact move_keeps_inv (inv_of_input rest hinv) ((step_of_cons hinput).symm.trans h)

/-! ### Flags and the mark -/

/-- No flag is set. -/
theorem flags_eq_clear_iff (f : Flags) : f = ⟨false, false, false⟩ ↔ (f.ovfb || f.ovfd || f.ill) = false := by
  cases f
  simp [and_assoc]

/-- Settles O44: the four meanings are one operation, which sets ILL and the mark and echoes the opcode. -/
theorem reservedOpcodesSetIll : Obligations.ReservedOpcodesSetIll := by
  unfold Obligations.ReservedOpcodesSetIll
  intro a s p hp
  simp only [List.mem_cons, List.not_mem_nil, or_false] at hp
  refine ⟨true, ?_⟩
  rcases hp with rfl | rfl | rfl | rfl <;> rfl

/-- Settles O45: the writers of each flag are read off the cases of `Effect`. -/
theorem flagsHaveTheirOwnWriters : Obligations.FlagsHaveTheirOwnWriters := by
  unfold Obligations.FlagsHaveTheirOwnWriters
  intro i s t h
  have heffect := effect_of_exec h
  exact ⟨heffect.ovfb_writers, heffect.ovfd_writers, heffect.ill_writers⟩

/-- Settles O46: a command that sets a flag sets the mark, and every other command keeps it. -/
theorem faultMarkIsSticky : Obligations.FaultMarkIsSticky := by
  unfold Obligations.FaultMarkIsSticky
  refine ⟨fun i s t h hmark => ?_, fun i s t h hset => ?_, fun i s t h hfree hmark => ?_, ?take, ?reset, ?free⟩
  · rcases (effect_of_exec h).faulted_cases with ⟨hfaulted, -⟩ | ⟨hfaulted, -⟩
    · exact hfaulted
    · exact hfaulted.trans hmark
  · rcases (effect_of_exec h).faulted_cases with ⟨hfaulted, -⟩ | ⟨-, hovfb, hovfd, hill⟩
    · exact hfaulted
    · rcases hset with ⟨ht, hs⟩ | ⟨ht, hs⟩ | ⟨ht, hs⟩
      · exact absurd (hovfb ht) (Bool.eq_false_iff.mp hs)
      · exact absurd (hovfd ht) (Bool.eq_false_iff.mp hs)
      · exact absurd (hill ht) (Bool.eq_false_iff.mp hs)
  · rcases (effect_of_exec h).faulted_cases with ⟨-, hflag⟩ | ⟨hkept, -⟩
    · exact hflag
    · exact absurd (hkept.symm.trans hmark) (Bool.eq_false_iff.mp hfree)
  case take =>
    rintro s t ⟨⟩
    exact takeResponse_faulted s
  case reset =>
    rintro s t ⟨⟩
    exact resetBlock_faulted s
  case free =>
    intro s hinv hfree
    obtain ⟨-, -, -, -, hmark, -⟩ := hinv
    rw [flags_eq_clear_iff, ← Bool.not_eq_true]
    intro hset
    simp [State.faultFree, hmark hset] at hfree

end Sys2Proof.Machine
end

section
/-! PROOFS (spec/43_message_ops.md sections 2 to 4). The message commands against the message functions of the source:
closing a buffer, pushing a whole message, and commands of the two paths side by side. -/

namespace Sys2Proof.Machine

/-! ### The responses of a closed message in the source's terms (R76, R78) -/

/-- The groups of a coded message, one per 5 bytes. -/
theorem groupsOf_encBin (b : List Byte) :
    groupsOf 8 ((b.length + padB b.length) / 5) (encBin b) = (byteGroups b).map fun g => encChunk (joinLanes 40 g) := by
  have hcount : (b.length + padB b.length) / 5 = ((byteGroups b).map fun g => encChunk (joinLanes 40 g)).length := by
    rw [List.length_map, byteGroups, length_groupsOf]
  rw [encBin_eq_flatMap, List.flatMap_def, hcount]
  exact groupsOf_flatten 8 _ (List.forall_mem_map.mpr fun _ _ => length_encChunk _)

/-- The 5-byte groups of a decoded message, one per 8 digits. -/
theorem groupsOf_decBytes (d : List Digit) : groupsOf 5 ((d.length + padD d.length) / 8) (decBytes d) =
    (digitGroups d).map fun g => splitLanes 8 5 (joinLanes 40 g : Chunk) := by
  have hcount : (d.length + padD d.length) / 8 =
      ((digitGroups d).map fun g => splitLanes 8 5 (joinLanes 40 g : Chunk)).length := by
    rw [List.length_map, digitGroups, length_groupsOf]
  rw [decBytes, regroup, List.flatMap_def, hcount]
  exact groupsOf_flatten 5 _ (List.forall_mem_map.mpr fun _ _ => length_splitLanes 5 _)

/-- What ENDB emits without overflow is EncBin of the buffer, beat by beat. -/
theorem codedMessage_encodeBeats (b : List Byte) :
    codedMessage 0x7 (padB b.length) (encodeBeats b) = binaryMessageResponses b := by
  rw [codedMessage, length_encodeBeats, binaryMessageResponses, groupsOf_encBin]
  simp only [encodeBeats, byteGroups, List.map_map, Function.comp_def]

/-- The chunk of 5 bytes as the data of a beat. -/
theorem ofNat_packNat_splitLanes (n : Chunk) : BitVec.ofNat 64 (packNat (splitLanes 8 5 n)) = n.setWidth 64 := by
  rw [← unpackNat_toNat, packNat_unpackNat, BitVec.ofNat_toNat]

/-- What ENDS emits without overflow is DecBin of any text with the digits of the buffer, chunk by chunk. -/
theorem codedMessage_decodeBeats (text : List Symbol) :
    codedMessage 0x9 (padD (text.filterMap valOf).length) (decodeBeats (text.filterMap valOf)) =
      textMessageResponses text := by
  rw [codedMessage, length_decodeBeats, textMessageResponses, ← length_filterMap_valOf, decBin_eq_decBytes,
    groupsOf_decBytes]
  simp only [decodeBeats, digitGroups, List.map_map, Function.comp_def, ofNat_packNat_splitLanes]

/-- ENDB of a buffer that did not overflow (R76). -/
theorem exec_endb_of_not_ovfb (a : Arg) {s : State} (h : s.flags.ovfb = false) : exec (.endb a) s =
    .next (emptyEncodeBuffer (emitAll (binaryMessageResponses s.eb) s)) := by
  simp only [exec, execEndb, h, Bool.false_eq_true, if_false, codedMessage_encodeBeats]

/-- ENDB after an overflow (R76, R79). -/
theorem exec_endb_of_ovfb (a : Arg) {s : State} (h : s.flags.ovfb = true) : exec (.endb a) s =
    .next (emptyEncodeBuffer (emit (doneWord 0x7 false 0 0) s)) := by
  simp only [exec, execEndb, h, if_true]
  rfl

/-- ENDS of a buffer that did not overflow and holds the digits of a text (R78). -/
theorem exec_ends_of_not_ovfd (a : Arg) {s : State} (h : s.flags.ovfd = false) {text : List Symbol}
    (hdb : s.db = text.filterMap valOf) :
    exec (.ends a) s = .next (emptyDecodeBuffer (emitAll (textMessageResponses text) s)) := by
  simp only [exec, execEnds, h, Bool.false_eq_true, if_false, hdb, codedMessage_decodeBeats]

/-- ENDS after an overflow (R78, R79). -/
theorem exec_ends_of_ovfd (a : Arg) {s : State} (h : s.flags.ovfd = true) : exec (.ends a) s =
    .next (emptyDecodeBuffer (emit (doneWord 0x9 false 0 0) s)) := by
  simp only [exec, execEnds, h, if_true]
  rfl

/-- Settles O30: the beats of the model are the groups of EncBin; the rest is the emptied buffer. -/
theorem endbCodesTheBuffer : Obligations.EndbCodesTheBuffer := by
  unfold Obligations.EndbCodesTheBuffer
  exact fun a s => ⟨exec_endb_of_not_ovfb a, exec_endb_of_ovfb a⟩

/-- Settles O32: the digits of the buffer are those of their canonical symbols, and the chunks of the model are the 5-byte
groups of DecBin. -/
theorem endsDecodesTheBuffer : Obligations.EndsDecodesTheBuffer := by
  unfold Obligations.EndsDecodesTheBuffer
  exact fun a s => ⟨fun h => exec_ends_of_not_ovfd a h (filterMap_valOf_map_canonOf s.db).symm, exec_ends_of_ovfd a⟩

/-! ### Pushing a whole message -/

/-- A sequence of commands that ends with `i`. -/
theorem execAll_concat (is : List Instr) (i : Instr) (s : State) :
    execAll (is ++ [i]) s = andThen (execAll is s) (exec i) := by
  rw [execAll_append]
  congr 1
  funext t
  exact andThen_next _

theorem execAll_putb_cons {a : Arg} {s t : State} (h : execPutb a s = .next t) (args : List Arg) :
    execAll ((a :: args).map .putb) s = execAll (args.map .putb) t := by
  rw [List.map_cons, execAll, exec, h, next_andThen]

theorem execAll_puts_cons {a : Arg} {s t : State} (h : execPuts a s = .next t) (args : List Arg) :
    execAll ((a :: args).map .puts) s = execAll (args.map .puts) t := by
  rw [List.map_cons, execAll, exec, h, next_andThen]

/-- Bytes that fit are appended. -/
theorem execAll_putb_of_room (args : List Arg) (s : State) (h : s.eb.length + args.length ≤ s.params.capB) :
    execAll (args.map .putb) s = .next { s with eb := s.eb ++ args.map argByte } := by
  induction args generalizing s with
  | nil => simp [execAll]
  | cons a args ih =>
    rw [List.length_cons] at h
    rw [execAll_putb_cons (execPutb_of_lt a s (by omega)), ih _ (by simp; omega)]
    simp

/-- After an overflow every further byte leaves the state. -/
theorem execAll_putb_of_overflowed (args : List Arg) {s : State} (hfull : s.params.capB ≤ s.eb.length)
    (hset : setOvfb s = s) : execAll (args.map .putb) s = .next s := by
  induction args with
  | nil => rfl
  | cons a args ih => rw [execAll_putb_cons (execPutb_of_full a s hfull), hset, ih]

/-- Bytes that do not fit fill the buffer and set OVFB. -/
theorem execAll_putb_of_overlong (args : List Arg) (s : State) (hroom : s.eb.length ≤ s.params.capB)
    (hlong : s.params.capB < s.eb.length + args.length) :
    ∃ b, execAll (args.map .putb) s = .next (setOvfb { s with eb := b }) := by
  induction args generalizing s with
  | nil => simp at hlong; omega
  | cons a args ih =>
    rw [List.length_cons] at hlong
    rcases Nat.lt_or_ge s.eb.length s.params.capB with hlt | hfull
    · rw [execAll_putb_cons (execPutb_of_lt a s hlt)]
      exact ih { s with eb := s.eb ++ [argByte a] } (by simpa using hlt) (by simp; omega)
    · rw [execAll_putb_cons (execPutb_of_full a s hfull)]
      exact ⟨s.eb, execAll_putb_of_overflowed args hfull rfl⟩

/-- The values of the valid symbols among the operands of PUTS. -/
def pushedDigits (args : List Arg) : List Digit := (args.map argSymbol).filterMap valOf

theorem pushedDigits_cons_of_invalid {a : Arg} (h : valOf (argSymbol a) = none) (args : List Arg) :
    pushedDigits (a :: args) = pushedDigits args := by
  rw [pushedDigits, List.map_cons, List.filterMap_cons_none h, pushedDigits]

theorem pushedDigits_cons_of_valid {a : Arg} {v : Digit} (h : valOf (argSymbol a) = some v) (args : List Arg) :
    pushedDigits (a :: args) = v :: pushedDigits args := by
  rw [pushedDigits, List.map_cons, List.filterMap_cons_some h, pushedDigits]

/-- Digits that fit are appended, invalid symbols are ignored. -/
theorem execAll_puts_of_room (args : List Arg) (s : State)
    (h : s.db.length + (pushedDigits args).length ≤ s.params.capD) :
    execAll (args.map .puts) s = .next { s with db := s.db ++ pushedDigits args } := by
  induction args generalizing s with
  | nil => simp [execAll, pushedDigits]
  | cons a args ih =>
    cases hv : valOf (argSymbol a) with
    | none =>
      rw [pushedDigits_cons_of_invalid hv] at h ⊢
      rw [execAll_puts_cons (execPuts_of_invalid a s hv), ih s h]
    | some v =>
      rw [pushedDigits_cons_of_valid hv, List.length_cons] at h
      rw [pushedDigits_cons_of_valid hv, execAll_puts_cons (execPuts_of_lt a s v hv (by omega)),
        ih _ (by simp; omega)]
      simp

/-- After an overflow every further symbol leaves the state. -/
theorem execAll_puts_of_overflowed (args : List Arg) {s : State} (hfull : s.params.capD ≤ s.db.length)
    (hset : setOvfd s = s) : execAll (args.map .puts) s = .next s := by
  induction args with
  | nil => rfl
  | cons a args ih => rw [execAll_puts_cons (execPuts_of_overflowed a hfull hset), ih]

/-- Digits that do not fit fill the buffer and set OVFD. -/
theorem execAll_puts_of_overlong (args : List Arg) (s : State) (hroom : s.db.length ≤ s.params.capD)
    (hlong : s.params.capD < s.db.length + (pushedDigits args).length) :
    ∃ d, execAll (args.map .puts) s = .next (setOvfd { s with db := d }) := by
  induction args generalizing s with
  | nil => simp [pushedDigits] at hlong; omega
  | cons a args ih =>
    cases hv : valOf (argSymbol a) with
    | none =>
      rw [pushedDigits_cons_of_invalid hv] at hlong
      rw [execAll_puts_cons (execPuts_of_invalid a s hv)]
      exact ih s hroom hlong
    | some v =>
      rw [pushedDigits_cons_of_valid hv, List.length_cons] at hlong
      rcases Nat.lt_or_ge s.db.length s.params.capD with hlt | hfull
      · rw [execAll_puts_cons (execPuts_of_lt a s v hv hlt)]
        exact ih { s with db := s.db ++ [v] } (by simpa using hlt) (by simp; omega)
      · rw [execAll_puts_cons (execPuts_of_full a s v hv hfull)]
        exact ⟨s.db, execAll_puts_of_overflowed args hfull rfl⟩

/-! ### The state after a message that found its buffer empty and its flag clear -/

theorem emptyEncodeBuffer_pushed {s : State} (heb : s.eb = []) (hflag : s.flags.ovfb = false) (b : List Byte)
    (ws : List ResponseWord) :
    emptyEncodeBuffer (emitAll ws { s with eb := b }) = { s with rq := s.rq ++ ws } := by
  obtain ⟨_, _, ⟨_, _, _⟩, _, _, _, _, _⟩ := s
  subst heb hflag
  rfl

theorem emptyDecodeBuffer_pushed {s : State} (hdb : s.db = []) (hflag : s.flags.ovfd = false) (d : List Digit)
    (ws : List ResponseWord) :
    emptyDecodeBuffer (emitAll ws { s with db := d }) = { s with rq := s.rq ++ ws } := by
  obtain ⟨_, _, ⟨_, _, _⟩, _, _, _, _, _⟩ := s
  subst hdb hflag
  rfl

/-! ### The statements about whole messages -/

/-- Settles O33: the bytes fit, so the buffer holds them all when ENDB codes it. -/
theorem pushedBytesAreCoded : Obligations.PushedBytesAreCoded := by
  unfold Obligations.PushedBytesAreCoded
  intro args e s heb hflag hlen
  have hpush := execAll_putb_of_room args s (by rwa [heb, List.length_nil, Nat.zero_add])
  rw [heb, List.nil_append] at hpush
  rw [execAll_concat, hpush, next_andThen, exec_endb_of_not_ovfb e (by exact hflag)]
  exact congrArg _ (emptyEncodeBuffer_pushed heb hflag _ _)

/-- Settles O34: the buffer holds the values of the valid symbols, and DecBin reads nothing else of a text. -/
theorem pushedSymbolsAreDecoded : Obligations.PushedSymbolsAreDecoded := by
  unfold Obligations.PushedSymbolsAreDecoded
  intro args e s hdb hflag hlen
  rw [← length_filterMap_valOf] at hlen
  have hpush := execAll_puts_of_room args s (by rwa [hdb, List.length_nil, Nat.zero_add])
  rw [hdb, List.nil_append] at hpush
  rw [execAll_concat, hpush, next_andThen, exec_ends_of_not_ovfd e (by exact hflag) rfl]
  exact congrArg _ (emptyDecodeBuffer_pushed hdb hflag _ _)

/-- Settles O35: the element that does not fit sets the flag, which stays until the message is closed. -/
theorem overlongMessageRefusedWhole : Obligations.OverlongMessageRefusedWhole := by
  unfold Obligations.OverlongMessageRefusedWhole
  constructor
  · intro args e s heb hlong
    obtain ⟨b, hpush⟩ := execAll_putb_of_overlong args s (by simp [heb]) (by simpa [heb] using hlong)
    refine ⟨true, ?_⟩
    rw [execAll_concat, hpush, next_andThen, exec_endb_of_ovfb e rfl, heb]
    rfl
  · intro args e s hdb hlong
    rw [← length_filterMap_valOf] at hlong
    obtain ⟨d, hpush⟩ := execAll_puts_of_overlong args s (by simp [hdb]) (by rwa [hdb, List.length_nil, Nat.zero_add])
    refine ⟨true, ?_⟩
    rw [execAll_concat, hpush, next_andThen, exec_ends_of_ovfd e rfl, hdb]
    rfl

/-- The operands of PUTS that are all invalid push no digit. -/
theorem pushedDigits_eq_nil {args : List Arg} (h : ∀ a ∈ args, isValid (argSymbol a) = false) :
    pushedDigits args = [] := by
  refine List.filterMap_eq_nil_iff.mpr (List.forall_mem_map.mpr fun a ha => ?_)
  simpa [isValid] using h a ha

/-- Settles O36: no byte and no digit make no group; invalid symbols leave the buffer empty. -/
theorem emptyMessageHasNoBeats : Obligations.EmptyMessageHasNoBeats := by
  unfold Obligations.EmptyMessageHasNoBeats
  constructor
  · intro e s heb hflag
    have hnone : binaryMessageResponses [] = [doneWord 0x7 true 0 0] := rfl
    rw [exec_endb_of_not_ovfb e hflag, heb, hnone, ← heb]
    exact congrArg _ (emptyEncodeBuffer_pushed heb hflag s.eb _)
  · intro args e s hdb hflag hinvalid
    have hdigits : pushedDigits args = [] := pushedDigits_eq_nil hinvalid
    have hnone : textMessageResponses (args.map argSymbol) = [doneWord 0x9 true 0 0] := by
      rw [← codedMessage_decodeBeats, ← pushedDigits, hdigits]
      rfl
    have hfit : ((args.map argSymbol).filter isValid).length ≤ s.params.capD := by
      rw [← length_filterMap_valOf, ← pushedDigits, hdigits]
      exact Nat.zero_le _
    rw [← hnone]
    exact pushedSymbolsAreDecoded args e s hdb hflag hfit

/-! ### The round trip through the block -/

theorem rspData_dataWord (op : Opcode) (d : Data) : rspData (dataWord op d) = d := by rw [dataWord_eq, rspData_wordOf]

/-- The data of the beats that code a binary message. -/
theorem beats_binaryMessageResponses (b : List Byte) :
    (binaryMessageResponses b).dropLast.map rspData =
      (byteGroups b).map fun g => joinLanes 64 (encChunk (joinLanes 40 g)) := by
  rw [binaryMessageResponses, List.dropLast_concat, groupsOf_encBin]
  simp only [List.map_map, Function.comp_def, rspData_dataWord]

/-- The data of the beats that decode a text message. -/
theorem beats_textMessageResponses (text : List Symbol) : (textMessageResponses text).dropLast.map rspData =
    (digitGroups (text.filterMap valOf)).map fun g => (joinLanes 40 g : Chunk).setWidth 64 := by
  rw [textMessageResponses, List.dropLast_concat, ← length_filterMap_valOf, decBin_eq_decBytes, groupsOf_decBytes]
  simp only [List.map_map, Function.comp_def, rspData_dataWord, ofNat_packNat_splitLanes]

/-- The symbols in the beats of a binary message are its EncBin. -/
theorem flatMap_symbols_binaryMessageResponses (b : List Byte) :
    (((binaryMessageResponses b).dropLast.map rspData).flatMap fun d => splitLanes 8 8 d) = encBin b := by
  rw [beats_binaryMessageResponses, encBin_eq_flatMap, List.flatMap_map]
  exact List.flatMap_congr fun g _ => argGroup_joinLanes_encChunk _

/-- The bytes in the beats of a text message are its DecBin. -/
theorem flatMap_bytes_textMessageResponses (text : List Symbol) :
    (((textMessageResponses text).dropLast.map rspData).flatMap fun d => unpackNat d.toNat) = decBin text := by
  rw [beats_textMessageResponses, decBin_eq_decBytes, List.flatMap_map, decBytes, regroup]
  refine List.flatMap_congr fun g _ => ?_
  rw [BitVec.toNat_setWidth_of_le (by decide), unpackNat_toNat]

/-- ENCBIN of a message that fits (R49). -/
theorem execAll_encbinCommands {b : List Byte} {s : State} (heb : s.eb = []) (hflag : s.flags.ovfb = false)
    (hlen : b.length ≤ s.params.capB) :
    execAll (encbinCommands b) s = .next { s with rq := s.rq ++ binaryMessageResponses b } := by
  have hbytes : ((b.map (BitVec.setWidth 64)).map fun a => BitVec.ofNat 8 a.toNat) = b := by
    rw [List.map_map]
    exact (List.map_congr_left fun x _ => ofNat_toNat_setWidth (by decide) x).trans (List.map_id b)
  have hpushed := pushedBytesAreCoded (b.map (BitVec.setWidth 64)) 0 s heb hflag (by rwa [List.length_map])
  rwa [hbytes, List.map_map] at hpushed

/-- DECBIN of a text whose valid symbols fit (R49). -/
theorem execAll_decbinCommands {text : List Symbol} {s : State} (hdb : s.db = []) (hflag : s.flags.ovfd = false)
    (hlen : (text.filter isValid).length ≤ s.params.capD) :
    execAll (decbinCommands text) s = .next { s with rq := s.rq ++ textMessageResponses text } := by
  have hsymbols : ((text.map (BitVec.setWidth 64)).map fun a => BitVec.ofNat 8 a.toNat) = text := by
    rw [List.map_map]
    exact (List.map_congr_left fun x _ => ofNat_toNat_setWidth (by decide) x).trans (List.map_id text)
  have hpushed := pushedSymbolsAreDecoded (text.map (BitVec.setWidth 64)) 0 s hdb hflag (by rwa [hsymbols])
  rwa [hsymbols, List.map_map] at hpushed

/-- Settles O37: the beats of the first command spell EncBin of the message, those of the second DecBin of that, which is
the message when it needs no padding. -/
theorem blockRoundTrip : Obligations.BlockRoundTrip := by
  unfold Obligations.BlockRoundTrip
  intro b s hmod hB hD heb hdb hovfb hovfd
  obtain ⟨-, hround⟩ := messageRoundTrip
  have hlen : ((encBin b).filter isValid).length ≤ s.params.capD := by
    rw [← length_filterMap_valOf, filterMap_valOf_encBin, length_encDigits]
    omega
  refine ⟨binaryMessageResponses b, textMessageResponses (encBin b), execAll_encbinCommands heb hovfb hB,
    flatMap_symbols_binaryMessageResponses b, execAll_decbinCommands hdb hovfd hlen, ?_⟩
  rw [flatMap_bytes_textMessageResponses, hround b hmod]

/-! ### The two paths -/

/-- Settles O38: by the cases of each command; what it tests is the buffer and the flag of its own path. -/
theorem encodeAndDecodePathsIndependent : Obligations.EncodeAndDecodePathsIndependent := by
  unfold Obligations.EncodeAndDecodePathsIndependent
  constructor
  · intro a s i hi
    simp only [List.mem_cons, List.not_mem_nil, or_false] at hi
    rcases hi with rfl | rfl
    case inl =>
      rcases Nat.lt_or_ge s.eb.length s.params.capB with hlt | hfull
      · refine ⟨s.eb ++ [argByte a], s.flags.ovfb, s.faulted, [], fun d o l => ?_⟩
        rw [List.append_nil]
        exact execPutb_of_lt a _ hlt
      · refine ⟨s.eb, true, true, [], fun d o l => ?_⟩
        rw [List.append_nil]
        exact execPutb_of_full a _ hfull
    case inr => exact ⟨[], false, s.faulted, endbResponses s, fun _ _ _ => rfl⟩
  · intro a s i hi
    simp only [List.mem_cons, List.not_mem_nil, or_false] at hi
    rcases hi with rfl | rfl
    case inl =>
      cases hv : valOf (argSymbol a) with
      | none =>
        refine ⟨s.db, s.flags.ovfd, s.faulted, [], fun b o l => ?_⟩
        rw [List.append_nil]
        exact execPuts_of_invalid a _ hv
      | some v =>
        rcases Nat.lt_or_ge s.db.length s.params.capD with hlt | hfull
        · refine ⟨s.db ++ [v], s.flags.ovfd, s.faulted, [], fun b o l => ?_⟩
          rw [List.append_nil]
          exact execPuts_of_lt a _ v hv hlt
        · refine ⟨s.db, true, true, [], fun b o l => ?_⟩
          rw [List.append_nil]
          exact execPuts_of_full a _ v hv hfull
    case inr => exact ⟨[], false, s.faulted, endsResponses s, fun _ _ _ => rfl⟩

/-- Neighbours may be exchanged when both orders lead to one state. -/
theorem execAll_exchange {i j : Instr} {s t u v : State} (hi : exec i s = .next t) (hij : exec j t = .next v)
    (hj : exec j s = .next u) (hji : exec i u = .next v) : execAll [i, j] s = execAll [j, i] s := by
  simp only [execAll, hi, hij, hj, hji, next_andThen]

/-- PUTS may be exchanged with a command that takes `s` to `t` without looking at the decode buffer or OVFD. -/
theorem execAll_exchange_puts {i : Instr} {s t : State} (b : Arg) (hi : exec i s = .next t)
    (hpushed : ∀ d, exec i { s with db := d } = .next { t with db := d })
    (hdropped : exec i (setOvfd s) = .next (setOvfd t)) (hdb : t.db = s.db) (hparams : t.params = s.params) :
    execAll [i, .puts b] s = execAll [.puts b, i] s := by
  cases hv : valOf (argSymbol b) with
  | none => exact execAll_exchange hi (execPuts_of_invalid b t hv) (execPuts_of_invalid b s hv) hi
  | some v =>
    rcases Nat.lt_or_ge s.db.length s.params.capD with hD | hD
    · have hpush := execPuts_of_lt b t v hv (by rwa [hdb, hparams])
      rw [hdb] at hpush
      exact execAll_exchange hi hpush (execPuts_of_lt b s v hv hD) (hpushed _)
    · have hdrop := execPuts_of_full b t v hv (by rwa [hdb, hparams])
      exact execAll_exchange hi hdrop (execPuts_of_full b s v hv hD) hdropped

/-- Settles O39: by what PUTB and PUTS find in the state; no command changes what the other path tests. -/
theorem messagesInterleave : Obligations.MessagesInterleave := by
  unfold Obligations.MessagesInterleave
  intro a b s
  refine ⟨?putb_puts, ?putb_ends, execAll_exchange_puts b rfl (fun _ => rfl) rfl rfl rfl⟩
  case putb_puts =>
    rcases Nat.lt_or_ge s.eb.length s.params.capB with hB | hB
    · exact execAll_exchange_puts b (execPutb_of_lt a s hB) (fun _ => execPutb_of_lt a _ hB) (execPutb_of_lt a _ hB) rfl rfl
    · exact execAll_exchange_puts b (execPutb_of_full a s hB) (fun _ => execPutb_of_full a _ hB) (execPutb_of_full a _ hB)
        rfl rfl
  case putb_ends =>
    rcases Nat.lt_or_ge s.eb.length s.params.capB with hB | hB
    · exact execAll_exchange (execPutb_of_lt a s hB) rfl rfl (execPutb_of_lt a _ hB)
    · exact execAll_exchange (execPutb_of_full a s hB) rfl rfl (execPutb_of_full a _ hB)

end Sys2Proof.Machine
end

section
/-! PROOFS (spec/10_state.md section 5, spec/70_reset_and_hazards.md section 4). The STATUS view and the end of a run. -/

namespace Sys2Proof.Machine

theorem extractLsb'_append_low_self {n m : Nat} (x : BitVec n) (y : BitVec m) : (x ++ y).extractLsb' 0 m = y :=
  (extractLsb'_append_low x y 0 m (Nat.zero_add m).le).trans BitVec.extractLsb'_eq_self

/-- The lengths of the buffers fit their fields (R8, R25). -/
theorem toNat_ofNat_length {n cap : Nat} (h : n ≤ cap) (hcap : cap ≤ 2 ^ 24 - 1) : (BitVec.ofNat 24 n).toNat = n := by
  rw [BitVec.toNat_ofNat, Nat.mod_eq_of_lt (by omega)]

theorem statusWord_eb {s : State} (h : s.eb.length ≤ s.params.capB) :
    ((statusWord s).extractLsb' 0 24).toNat = s.eb.length := by
  rw [statusWord, extractLsb'_append_low_self, toNat_ofNat_length h s.params.capB_most]

theorem statusWord_db {s : State} (h : s.db.length ≤ s.params.capD) :
    ((statusWord s).extractLsb' 24 24).toNat = s.db.length := by
  rw [statusWord, extractLsb'_append_high _ _ 24 24 le_rfl, extractLsb'_append_low_self,
    toNat_ofNat_length h s.params.capD_most]

/-- The bits of STATUS above the lengths are 13 zeros and the three flags. -/
theorem statusWord_high (s : State) (start len : Nat) (h : 24 ≤ start - 24) : (statusWord s).extractLsb' start len =
    (0#13 ++ BitVec.ofBool s.flags.ill ++ BitVec.ofBool s.flags.ovfd ++ BitVec.ofBool s.flags.ovfb).extractLsb'
      (start - 24 - 24) len := by
  rw [statusWord, extractLsb'_append_high _ _ start len (by omega), extractLsb'_append_high _ _ _ len h]

/-- The fields of these 16 bits: 8 cases. -/
theorem statusFlags_fields (ill ovfd ovfb : Bool) :
    let flags := 0#13 ++ BitVec.ofBool ill ++ BitVec.ofBool ovfd ++ BitVec.ofBool ovfb
    flags.extractLsb' 0 1 = BitVec.ofBool ovfb ∧ flags.extractLsb' 1 1 = BitVec.ofBool ovfd ∧
      flags.extractLsb' 2 1 = BitVec.ofBool ill ∧ flags.extractLsb' 3 13 = 0 := by
  revert ill ovfd ovfb
  decide

theorem statusWord_flags (s : State) : (statusWord s).getLsbD 48 = s.flags.ovfb ∧
    (statusWord s).getLsbD 49 = s.flags.ovfd ∧ (statusWord s).getLsbD 50 = s.flags.ill ∧
    (statusWord s).extractLsb' 51 13 = 0 := by
  obtain ⟨hovfb, hovfd, hill, hzero⟩ := statusFlags_fields s.flags.ill s.flags.ovfd s.flags.ovfb
  have hhigh := statusWord_high s
  exact ⟨getLsbD_of_extract ((hhigh 48 1 (by decide)).trans hovfb),
    getLsbD_of_extract ((hhigh 49 1 (by decide)).trans hovfd),
    getLsbD_of_extract ((hhigh 50 1 (by decide)).trans hill), (hhigh 51 13 (by decide)).trans hzero⟩

/-- Settles O42: the flags stand at fixed bits, and the invariant bounds the lengths by the capacities, which fit 24 bits. -/
theorem statusFieldsShowTheState : Obligations.StatusFieldsShowTheState := by
  unfold Obligations.StatusFieldsShowTheState
  intro s hinv
  obtain ⟨heb, hdb, -⟩ := hinv
  exact ⟨statusWord_eb heb, statusWord_db hdb, statusWord_flags s⟩

/-! ### The end of a run (R114) -/

/-- No command word among the moves. -/
theorem commandsOf_eq_nil_iff (ms : List HostMove) : commandsOf ms = [] ↔ ∀ w, HostMove.command w ∉ ms := by
  induction ms with
  | nil => simp [commandsOf]
  | cons m ms ih =>
    cases m with
    | command w => exact ⟨nofun, fun h => absurd List.mem_cons_self (h w)⟩
    | take | reset => simpa [commandsOf] using ih

theorem runOver_iff (s : State) : s.runOver = true ↔ (∀ w, HostMove.command w ∉ s.input) ∧ s.rq = [] := by
  rw [State.runOver, Bool.and_eq_true, List.isEmpty_iff, List.isEmpty_iff, commandsOf_eq_nil_iff]

/-- STATUS reads 0 exactly when both buffers are empty and no flag is set. -/
theorem statusWord_eq_zero_iff {s : State} (hinv : s.Inv) :
    statusWord s = 0 ↔ s.eb = [] ∧ s.db = [] ∧ s.flags = ⟨false, false, false⟩ := by
  constructor
  · intro hzero
    obtain ⟨heb, hdb, hovfb, hovfd, hill, -⟩ := statusFieldsShowTheState s hinv
    rw [hzero] at heb hdb hovfb hovfd hill
    refine ⟨List.eq_nil_of_length_eq_zero heb.symm, List.eq_nil_of_length_eq_zero hdb.symm, ?_⟩
    rw [flags_eq_clear_iff, ← hovfb, ← hovfd, ← hill]
    rfl
  · exact fun ⟨heb, hdb, hflags⟩ => statusWord_eq_zero heb hdb hflags

/-- Settles O60: a run is over by its definition; the buffers and flags are clear exactly when STATUS reads 0. -/
theorem cleanRunReadsZeroStatus : Obligations.CleanRunReadsZeroStatus := by
  unfold Obligations.CleanRunReadsZeroStatus
  refine ⟨runOver_iff, fun s hinv => ?_⟩
  rw [statusWord_eq_zero_iff hinv, flags_eq_clear_iff, ← and_assoc, ← runOver_iff]
  simp only [State.runClean, Bool.and_eq_true, List.isEmpty_iff, Bool.not_eq_true', and_assoc]

end Sys2Proof.Machine
end

section
/-! PROOFS (spec/20_memory.md section 5, spec/70_reset_and_hazards.md section 4). Commands, deliveries and steps in a row. A
command looks neither at the response queue nor at the delivered words nor at the coming moves. -/

namespace Sys2Proof.Machine

/-! ### What a command does not look at -/

/-- The state with another response queue, other delivered words and other coming moves. -/
def State.withChannels (s : State) (rq delivered : List ResponseWord) (input : List HostMove) : State :=
  { s with rq := rq, delivered := delivered, input := input }

theorem withChannels_self (s : State) : s.withChannels s.rq s.delivered s.input = s := rfl

/-- A command has one effect and one list of new responses whatever the channels hold. -/
theorem exec_withChannels (i : Instr) (s : State) : ∃ (t : State) (ws : List ResponseWord), ∀ rq delivered input,
    exec i (s.withChannels rq delivered input) = .next (t.withChannels (rq ++ ws) delivered input) := by
  have quiet {i : Instr} {t : State}
      (h : ∀ rq delivered input, exec i (s.withChannels rq delivered input) = .next (t.withChannels rq delivered input)) :
      ∃ (t : State) (ws : List ResponseWord), ∀ rq delivered input,
        exec i (s.withChannels rq delivered input) = .next (t.withChannels (rq ++ ws) delivered input) :=
    ⟨t, [], by simpa using h⟩
  cases i with
  | nop a => exact quiet fun _ _ _ => rfl
  | putb a =>
    rcases Nat.lt_or_ge s.eb.length s.params.capB with room | full
    · exact quiet (t := { s with eb := s.eb ++ [argByte a] }) fun _ _ _ => execPutb_of_lt a _ room
    · exact quiet (t := setOvfb s) fun _ _ _ => execPutb_of_full a _ full
  | puts a =>
    cases hv : valOf (argSymbol a) with
    | none => exact quiet (t := s) fun _ _ _ => execPuts_of_invalid a _ hv
    | some v =>
      rcases Nat.lt_or_ge s.db.length s.params.capD with room | full
      · exact quiet (t := { s with db := s.db ++ [v] }) fun _ _ _ => execPuts_of_lt a _ v hv room
      · exact quiet (t := setOvfd s) fun _ _ _ => execPuts_of_full a _ v hv full
  | decd a =>
    cases hv : valOf (argSymbol a) with
    | none => exact ⟨s, _, fun _ _ _ => exec_decd_of_invalid a _ hv⟩
    | some v => exact ⟨s, _, fun _ _ _ => exec_decd_of_mem a _ ((valOf_eq_some_iff _ v).mp hv)⟩
  | endb a => exact ⟨emptyEncodeBuffer s, endbResponses s, fun _ _ _ => rfl⟩
  | ends a => exact ⟨emptyDecodeBuffer s, endsResponses s, fun _ _ _ => rfl⟩
  | abort a => exact ⟨clearIll (emptyDecodeBuffer (emptyEncodeBuffer s)), [resultWord 0xB true 0 0], fun _ _ _ => rfl⟩
  | stat a => exact ⟨s, [resultWord 0xA true 0 (statusWord s)], fun _ _ _ => rfl⟩
  | encd a | dset a | encc a | decc a => exact ⟨s, _, fun _ _ _ => rfl⟩
  | reservedC a | reservedD a | reservedE a | reservedF a => exact ⟨setIll s, _, fun _ _ _ => rfl⟩

/-! ### Steps -/

/-- What the harness reads is what the decoder gives for the word that it places. -/
theorem decode_of_decodeTableWord {nbits w : Nat} {i : Instr} (h : decodeTableWord nbits w = some i) :
    decode (BitVec.ofNat 68 (w % 2 ^ nbits)) = i := by
  by_cases hfit : w % 2 ^ nbits < 2 ^ 68
  · rw [decodeTableWord, decodeBits, if_pos hfit] at h
    exact Option.some.inj h
  · rw [decodeTableWord, decodeBits, if_neg hfit] at h
    cases h

/-- Settles O50: the decoder gives the command of its word, and the step reads the first of the coming moves. -/
theorem stepRunsDecodedCommand : Obligations.StepRunsDecodedCommand := by
  unfold Obligations.StepRunsDecodedCommand
  refine ⟨fun s w rest h => step_of_cons h, fun s i rest h => ?_, fun s nbits w i h => ?_⟩
  · rw [step_of_cons h, move, decode_encode]
  · rw [step_of_cons (withFetchWord_input s nbits w), move, decode_of_decodeTableWord h]
    rfl

/-- Settles O51: the move taken from the list is a delivery or a reset, or there is none. -/
theorem stepTakesResetsOrWaits : Obligations.StepTakesResetsOrWaits := by
  unfold Obligations.StepTakesResetsOrWaits
  refine ⟨fun s w q rest hinput hrq => ?_, fun s rest hinput hrq => ?_, fun s rest hinput => step_of_cons hinput,
    fun s => step_of_nil⟩
  · rw [step_of_cons hinput]
    simp only [move, takeResponse, hrq]
  · rw [step_of_cons hinput]
    simp only [move, takeResponse, hrq]

/-! ### Deliveries -/

/-- Settles O57: the head of a queue that is not empty is the same before and after the command. -/
theorem takingCommutesWithCommands : Obligations.TakingCommutesWithCommands := by
  unfold Obligations.TakingCommutesWithCommands
  intro i s hne
  obtain ⟨w, q, hrq⟩ := List.exists_cons_of_ne_nil hne
  obtain ⟨t, ws, hexec⟩ := exec_withChannels i s
  have htake : takeResponse s = s.withChannels q (s.delivered ++ [w]) s.input := by
    simp only [takeResponse, hrq]
    rfl
  have hbefore := hexec s.rq s.delivered s.input
  rw [withChannels_self, hrq] at hbefore
  rw [hbefore, next_andThen, move, move, next_andThen, htake, hexec]
  rfl

/-- `t` is `s` but for the coming moves and for which of the responses caused so far are delivered. -/
def SameBlock (s t : State) : Prop :=
  ∃ rq delivered input, t = s.withChannels rq delivered input ∧ delivered ++ rq = s.responses

theorem SameBlock.refl (s : State) : SameBlock s s := ⟨s.rq, s.delivered, s.input, rfl, rfl⟩

/-- A delivery does not change the block. -/
theorem SameBlock.take {s t : State} (h : SameBlock s t) : SameBlock s (takeResponse t) := by
  obtain ⟨rq, delivered, input, rfl, hresponses⟩ := h
  cases rq with
  | nil => exact ⟨_, _, _, rfl, hresponses⟩
  | cons w q => exact ⟨q, delivered ++ [w], input, rfl, by rw [← hresponses, List.append_assoc]; rfl⟩

/-- A command has the same effect on the same block. -/
theorem SameBlock.exec {s t : State} (h : SameBlock s t) (i : Instr) :
    ∃ s' t', exec i s = .next s' ∧ exec i t = .next t' ∧ SameBlock s' t' := by
  obtain ⟨rq, delivered, input, rfl, hresponses⟩ := h
  obtain ⟨u, ws, hexec⟩ := exec_withChannels i s
  refine ⟨_, _, hexec s.rq s.delivered s.input, hexec rq delivered input, rq ++ ws, delivered, input, rfl, ?_⟩
  rw [← List.append_assoc, hresponses, State.responses, List.append_assoc]
  rfl

/-- A run without reset leaves the block that its commands alone leave. -/
theorem SameBlock.runMoves {s t : State} (h : SameBlock s t) {ms : List HostMove} (hreset : .reset ∉ ms) :
    ∃ s' t', execAll ((commandsOf ms).map decode) s = .next s' ∧ runMoves ms t = .next t' ∧ SameBlock s' t' := by
  induction ms generalizing s t with
  | nil => exact ⟨s, t, rfl, rfl, h⟩
  | cons m ms ih =>
    obtain ⟨hm, hms⟩ := not_or.mp (List.mem_cons.not.mp hreset)
    cases m with
    | command w =>
      obtain ⟨s', t', hs, ht, h'⟩ := h.exec (decode w)
      obtain ⟨s'', t'', hs', ht', h''⟩ := ih h' hms
      refine ⟨s'', t'', ?_, ?_, h''⟩
      · rw [commandsOf, List.map_cons, execAll, hs, next_andThen, hs']
      · rw [Machine.runMoves, move, ht, next_andThen, ht']
    | take => exact ih h.take hms
    | reset => exact absurd rfl hm

/-- Settles O55: both runs leave the block that the commands alone leave. -/
theorem responsesDependOnCommandsAlone : Obligations.ResponsesDependOnCommandsAlone := by
  unfold Obligations.ResponsesDependOnCommandsAlone
  intro s t u ms ns hms hns hcommands ht hu
  obtain ⟨c, t', hc, ht', hsame⟩ := (SameBlock.refl s).runMoves hms
  obtain ⟨c', u', hc', hu', hsame'⟩ := (SameBlock.refl s).runMoves hns
  cases ht.symm.trans ht'
  cases hu.symm.trans hu'
  rw [hcommands, hc'] at hc
  cases hc
  obtain ⟨rq, delivered, input, rfl, hresponses⟩ := hsame
  obtain ⟨rq', delivered', input', rfl, hresponses'⟩ := hsame'
  refine ⟨hresponses.trans hresponses'.symm, rfl, rfl, rfl, rfl, fun hrq hrq' => ?_⟩
  obtain rfl : rq = [] := hrq
  obtain rfl : rq' = [] := hrq'
  show delivered = delivered'
  rw [List.append_nil] at hresponses hresponses'
  exact hresponses.trans hresponses'.symm

/-! ### The run of the machine -/

/-- A move has one effect whatever the coming moves are. -/
theorem move_withInput (m : HostMove) (s : State) :
    ∃ t : State, ∀ input, move m { s with input := input } = .next { t with input := input } := by
  cases m with
  | command w =>
    obtain ⟨t, ws, hexec⟩ := exec_withChannels (decode w) s
    exact ⟨t.withChannels (s.rq ++ ws) s.delivered [], hexec s.rq s.delivered⟩
  | take =>
    refine ⟨takeResponse s, fun input => ?_⟩
    cases hrq : s.rq <;> simp only [move, takeResponse, hrq]
  | reset => exact ⟨resetBlock s, fun _ => rfl⟩

theorem run_succ_of_step {s t : State} (h : step s = .next t) (k : Nat) : core.run (k + 1) s = core.run k t := by
  have hcore : core.step s = .next t := h
  simp only [Host.Core.run, hcore]

/-- The machine carries out the coming moves one a step. -/
theorem run_length_input (ms : List HostMove) (s : State) : ∃ t : State,
    core.run ms.length { s with input := ms } = .next t ∧ t.input = [] ∧
      runMoves ms { s with input := [] } = .next t := by
  induction ms generalizing s with
  | nil => exact ⟨_, rfl, rfl, rfl⟩
  | cons m ms ih =>
    obtain ⟨u, hmove⟩ := move_withInput m s
    obtain ⟨t, hrun, hinput, hmoves⟩ := ih u
    refine ⟨t, ?_, hinput, ?_⟩
    · have hstep : step { s with input := m :: ms } = .next { u with input := ms } :=
        calc step { s with input := m :: ms } = move m { s with input := ms } := step_of_cons rfl
          _ = _ := hmove ms
      exact (run_succ_of_step hstep ms.length).trans hrun
    · rw [runMoves, hmove [], next_andThen, hmoves]

end Sys2Proof.Machine
end

section
/-! PROOFS (spec/30_encoding.md section 1, spec/70_reset_and_hazards.md sections 1, 3 and 4). The two channels at a clock
edge, and progress over endless runs of edges. -/

namespace Sys2Proof.Machine

/-! ### One edge -/

/-- While a response is presented, its word is the head of the queue. -/
theorem rspWord_of_rspValid {t : EdgeTiming} {p : Ports} (h : rspValid t p = true) : rspWord t p = p.block.rq.head? :=
  if_pos h

theorem rspValid_of_nil {p : Ports} (t : EdgeTiming) (h : p.block.rq = []) : rspValid t p = false := by
  simp [rspValid, h]

/-- A response that has been raised is presented whatever the timing. -/
theorem rspValid_of_raised {p : Ports} (t : EdgeTiming) (hraised : p.raised = true) (hne : p.block.rq ≠ []) :
    rspValid t p = true := by
  simp [rspValid, hraised, hne]

/-- What is presented is in the queue. -/
theorem rq_ne_nil_of_rspValid {t : EdgeTiming} {p : Ports} (h : rspValid t p = true) : p.block.rq ≠ [] := by
  intro hnil
  rw [rspValid_of_nil t hnil] at h
  cases h

theorem rspValid_of_delivers {t : EdgeTiming} {e : EdgeIn} {p : Ports} (h : delivers t e p = true) :
    rspValid t p = true := by
  simp only [delivers, Bool.and_eq_true] at h
  exact h.1.2

/-- An edge with `rst = 1` accepts and delivers nothing. -/
theorem accepts_of_rst (t : EdgeTiming) {e : EdgeIn} (p : Ports) (h : e.rst = true) : accepts t e p = false := by
  simp [accepts, h]

theorem delivers_of_rst (t : EdgeTiming) {e : EdgeIn} (p : Ports) (h : e.rst = true) : delivers t e p = false := by
  simp [delivers, h]

/-- Without a delivery the queue keeps its elements, and nothing joins the delivered words. -/
theorem clockEdge_queue_kept {t : EdgeTiming} {e : EdgeIn} {p q : Ports} (h : clockEdge t e p = .next q)
    (hr : e.rst = false) (hd : delivers t e p = false) :
    ∃ ws, q.block.rq = p.block.rq ++ ws ∧ q.block.delivered = p.block.delivered := by
  obtain ⟨ws, hrq, hdelivered, -⟩ := clockEdge_queue h hr
  rw [hd] at hrq hdelivered
  exact ⟨ws, hrq, by simpa using hdelivered⟩

/-- A delivery hands over the presented word. -/
theorem clockEdge_delivers {t : EdgeTiming} {e : EdgeIn} {p q : Ports} (h : clockEdge t e p = .next q)
    (hr : e.rst = false) (hd : delivers t e p = true) :
    ∃ w, rspWord t p = some w ∧ q.block.delivered = p.block.delivered ++ [w] := by
  have hv := rspValid_of_delivers hd
  obtain ⟨ws, -, hdelivered, -⟩ := clockEdge_queue h hr
  obtain ⟨w, rest, hrq⟩ := List.exists_cons_of_ne_nil (rq_ne_nil_of_rspValid hv)
  refine ⟨w, by rw [rspWord_of_rspValid hv, hrq]; rfl, ?_⟩
  rw [hdelivered, hd, hrq]
  rfl

/-- Without an accepted command the buffers and flags stay. -/
theorem clockEdge_buffers_kept {t : EdgeTiming} {e : EdgeIn} {p q : Ports} (h : clockEdge t e p = .next q)
    (hr : e.rst = false) (ha : accepts t e p = false) :
    q.block.eb = p.block.eb ∧ q.block.db = p.block.db ∧ q.block.flags = p.block.flags := by
  have hblock := (clockEdge_block h hr).2 ha
  rw [hblock]
  split <;> simp

/-- One edge accepts at most one command and delivers at most one response. -/
theorem edgeMoves_bounds (t : EdgeTiming) (e : EdgeIn) (p : Ports) :
    (commandsOf (edgeMoves t e p)).length ≤ 1 ∧ (edgeMoves t e p).count .take ≤ 1 := by
  unfold edgeMoves
  cases e.rst <;> cases delivers t e p <;> cases accepts t e p <;> simp [commandsOf]

/-- Settles O58: a response not delivered is raised and stays the head of the queue, and a command not accepted is pending
for a host that keeps its duty. -/
theorem responseHeldUntilDelivered : Obligations.ResponseHeldUntilDelivered := by
  unfold Obligations.ResponseHeldUntilDelivered
  intro tm e p q h hr
  have hhead (hd : delivers tm e p = false) (hne : p.block.rq ≠ []) :
      q.block.rq.head? = p.block.rq.head? ∧ q.block.delivered = p.block.delivered := by
    obtain ⟨ws, hrq, hdelivered⟩ := clockEdge_queue_kept h hr hd
    rw [hrq]
    exact ⟨List.head?_append_of_ne_nil _ hne, hdelivered⟩
  refine ⟨fun hv hd tm' => ?_, hhead, clockEdge_delivers h hr, fun hv ha e' hr' hholds => ?_,
    clockEdge_buffers_kept h hr, edgeMoves_bounds tm e p⟩
  · have hne := rq_ne_nil_of_rspValid hv
    obtain ⟨hsame, -⟩ := hhead hd hne
    have hne' : q.block.rq ≠ [] := by
      intro hnil
      rw [hnil] at hsame
      exact hne (List.head?_eq_none_iff.mp hsame.symm)
    have hv' := rspValid_of_raised tm' (clockEdge_keeps_raised h hr hv hd) hne'
    exact ⟨hv', by rw [rspWord_of_rspValid hv', rspWord_of_rspValid hv, hsame]⟩
  · exact hostHolds_of_pending hholds hr' (clockEdge_keeps_pending h hr hv ha)

/-- A block with an empty queue still has one after an edge that accepts no command. -/
theorem clockEdge_rq_nil {t : EdgeTiming} {e : EdgeIn} {p q : Ports} (hnil : p.block.rq = [])
    (ha : accepts t e p = false) (h : clockEdge t e p = .next q) : q.block.rq = [] := by
  cases hr : e.rst with
  | true =>
    cases (clockEdge_reset t e p hr).symm.trans h
    exact resetBlock_rq p.block
  | false =>
    obtain ⟨ws, hrq, -, hws⟩ := clockEdge_queue h hr
    rw [hrq, hnil, hws ha, List.drop_nil, List.append_nil]

/-- Settles O59: a reset edge is one reset move, which leaves an empty queue; only an accepted command fills it. -/
theorem resetEdgeDropsEverything : Obligations.ResetEdgeDropsEverything := by
  unfold Obligations.ResetEdgeDropsEverything
  constructor
  · intro tm e p hr
    refine ⟨accepts_of_rst tm p hr, delivers_of_rst tm p hr, _, clockEdge_reset tm e p hr, rfl, rfl, rfl, rfl,
      fun tm' => rspValid_of_nil tm' rfl, fun tm' e' hr' => ?_⟩
    simp [cmdReady, hr']
  · intro tm e p q hnil ha h
    have hrq := clockEdge_rq_nil hnil ha h
    exact ⟨hrq, fun tm' => rspValid_of_nil tm' hrq⟩

/-! ### Progress (R113) -/

/-- With an empty queue every response has been delivered. -/
theorem responses_of_rq_nil {s : State} (h : s.rq = []) : s.responses = s.delivered := by
  rw [State.responses, h, List.append_nil]

namespace PortRun

variable {r : PortRun} {n m : Nat}

/-- Under the premises of R113 a queue that is not empty has its head delivered at some time. -/
theorem exists_deliversAt (hfair : r.WeaklyFair) (hdrain : r.HostDrainsFrom n) (hm : n ≤ m)
    (hne : (r.ports m).block.rq ≠ []) : ∃ k, m ≤ k ∧ r.deliversAt k = true := by
  by_contra hnever
  push Not at hnever
  -- Without a delivery the queue stays non-empty, so a response is presented, and the host takes it.
  have hstays : ∀ k, m ≤ k → (r.ports k).block.rq ≠ [] := by
    intro k hk
    induction k, hk using Nat.le_induction with
    | base => exact hne
    | succ k hk ih =>
      obtain ⟨ws, hrq, -⟩ := r.queue_step k (hdrain k (hm.trans hk)).1
      rw [hrq, Bool.eq_false_iff.mpr (hnever k hk)]
      exact List.append_ne_nil_of_left_ne_nil ih ws
  obtain ⟨k, hk, hvalid⟩ := hfair.2 m fun k hk => ⟨(hdrain k (hm.trans hk)).1, hstays k hk⟩
  obtain ⟨j, hj, hdelivers⟩ := (hdrain k (hm.trans hk)).2 hvalid
  exact hnever j (hk.trans hj) hdelivers

/-- Until it is accepted a command stays presented, and the queue does not grow. -/
theorem presented_until_accepted (hrst : ∀ k, m ≤ k → (r.input k).rst = false) (hvalid : (r.input m).cmdValid = true)
    {k : Nat} (hk : m ≤ k) (hnever : ∀ j, m ≤ j → j < k → r.acceptsAt j = false) :
    (r.input k).cmdValid = true ∧ (r.input k).cmdWord = (r.input m).cmdWord ∧
      (r.ports k).block.rq.length ≤ (r.ports m).block.rq.length := by
  induction k, hk using Nat.le_induction with
  | base => exact ⟨hvalid, rfl, le_rfl⟩
  | succ k hk ih =>
    obtain ⟨hv, hword, hlen⟩ := ih fun j hj hjk => hnever j hj (hjk.trans k.lt_succ_self)
    have ha : r.acceptsAt k = false := hnever k hk k.lt_succ_self
    have hpending := clockEdge_keeps_pending (r.edge k) (hrst k hk) hv ha
    obtain ⟨hv', hword'⟩ := hostHolds_of_pending (r.holds (k + 1)) (hrst (k + 1) (by omega)) hpending
    obtain ⟨ws, hrq, -, hws⟩ := r.queue_step k (hrst k hk)
    refine ⟨hv', hword'.trans hword, ?_⟩
    rw [hrq, hws ha, List.append_nil, List.length_drop]
    omega

/-- A presented command is accepted at some time: otherwise the queue runs empty, and then fairness accepts it. -/
theorem exists_acceptsAt (hfair : r.WeaklyFair) (hdrain : r.HostDrainsFrom n) (hm : n ≤ m)
    (hvalid : (r.input m).cmdValid = true) : ∃ k, m ≤ k ∧ r.acceptsAt k = true := by
  induction hlen : (r.ports m).block.rq.length using Nat.strong_induction_on generalizing m with
  | _ len ih =>
    by_contra hnot
    have hnever (j : Nat) (hj : m ≤ j) : r.acceptsAt j = false := Bool.eq_false_iff.mpr fun ha => hnot ⟨j, hj, ha⟩
    have hrst (k : Nat) (hk : m ≤ k) : (r.input k).rst = false := (hdrain k (hm.trans hk)).1
    have hpresented {k : Nat} (hk : m ≤ k) := presented_until_accepted hrst hvalid hk fun j hj _ => hnever j hj
    by_cases hnil : (r.ports m).block.rq = []
    · refine hnot (hfair.1 m fun k hk => ?_)
      obtain ⟨hv, -, hle⟩ := hpresented hk
      rw [hnil] at hle
      exact ⟨hrst k hk, hv, List.eq_nil_of_length_eq_zero (Nat.le_zero.mp hle)⟩
    · obtain ⟨k, hk, hdelivers⟩ := exists_deliversAt hfair hdrain hm hnil
      have hne : (r.ports k).block.rq ≠ [] := rq_ne_nil_of_rspValid (rspValid_of_delivers hdelivers)
      obtain ⟨-, -, hle⟩ := hpresented hk
      obtain ⟨hv, -, -⟩ := hpresented (hk.trans k.le_succ)
      have hshorter : (r.ports (k + 1)).block.rq.length < len := by
        obtain ⟨ws, hrq, -, hws⟩ := r.queue_step k (hrst k hk)
        have hpos := List.length_pos_iff.mpr hne
        rw [hrq, hws (hnever k hk), hdelivers, List.append_nil, List.length_drop, Bool.toNat_true]
        omega
      obtain ⟨j, hj, ha⟩ := ih _ hshorter (by omega) hv rfl
      exact hnot ⟨j, by omega, ha⟩

/-- The word that is accepted is the presented one. -/
theorem exists_acceptsAt_word (hfair : r.WeaklyFair) (hdrain : r.HostDrainsFrom n) (hm : n ≤ m)
    (hvalid : (r.input m).cmdValid = true) :
    ∃ k, m ≤ k ∧ r.acceptsAt k = true ∧ (r.input k).cmdWord = (r.input m).cmdWord := by
  have hexists := exists_acceptsAt hfair hdrain hm hvalid
  obtain ⟨hk, ha⟩ := Nat.find_spec hexists
  refine ⟨Nat.find hexists, hk, ha, ?_⟩
  have hfirst (j : Nat) (hj : m ≤ j) (hlt : j < Nat.find hexists) : r.acceptsAt j = false :=
    Bool.eq_false_iff.mpr fun ha => Nat.find_min hexists hlt ⟨hj, ha⟩
  exact (presented_until_accepted (fun k hk => (hdrain k (hm.trans hk)).1) hvalid hk hfirst).2.1

/-- Over edges without reset no response is lost and no delivery undone. -/
theorem responses_prefix (hrst : ∀ k, m ≤ k → (r.input k).rst = false) {k : Nat} (hk : m ≤ k) :
    (r.ports m).block.responses <+: (r.ports k).block.responses ∧
      (r.ports m).block.delivered <+: (r.ports k).block.delivered := by
  induction k, hk using Nat.le_induction with
  | base => exact ⟨List.prefix_rfl, List.prefix_rfl⟩
  | succ k hk ih =>
    obtain ⟨ws, hrq, hdelivered, -⟩ := r.queue_step k (hrst k hk)
    refine ⟨ih.1.trans ⟨ws, ?_⟩, ih.2.trans ⟨_, hdelivered.symm⟩⟩
    rw [State.responses, State.responses, hrq, hdelivered, List.append_assoc, List.append_assoc,
      ← List.append_assoc (List.take _ _), List.take_append_drop]

/-- As many responses are delivered at some time as were caused before edge `m`. -/
theorem exists_length_le_delivered (hfair : r.WeaklyFair) (hdrain : r.HostDrainsFrom n) (hm : n ≤ m) (d : Nat) {j : Nat}
    (hj : m ≤ j) (hd : (r.ports m).block.responses.length ≤ (r.ports j).block.delivered.length + d) :
    ∃ k, j ≤ k ∧ (r.ports m).block.responses.length ≤ (r.ports k).block.delivered.length := by
  induction d generalizing j with
  | zero => exact ⟨j, le_rfl, hd⟩
  | succ d ih =>
    rcases Nat.lt_or_ge (r.ports j).block.delivered.length (r.ports m).block.responses.length with hlt | hge
    · have hrst (k : Nat) (hk : m ≤ k) : (r.input k).rst = false := (hdrain k (hm.trans hk)).1
      have hwaiting : (r.ports j).block.rq ≠ [] := by
        intro hnil
        have hle := (responses_prefix hrst hj).1.length_le
        rw [responses_of_rq_nil hnil] at hle
        omega
      obtain ⟨k, hk, hdelivers⟩ := exists_deliversAt hfair hdrain (hm.trans hj) hwaiting
      have hne : (r.ports k).block.rq ≠ [] := rq_ne_nil_of_rspValid (rspValid_of_delivers hdelivers)
      have hmore : (r.ports (k + 1)).block.delivered.length = (r.ports k).block.delivered.length + 1 := by
        obtain ⟨ws, -, hdelivered, -⟩ := r.queue_step k (hrst k (hj.trans hk))
        rw [hdelivered, hdelivers, List.length_append, List.length_take, Bool.toNat_true,
          Nat.min_eq_left (List.length_pos_iff.mpr hne)]
      have hgrown := (responses_prefix (fun i hi => hrst i (hj.trans hi)) hk).2.length_le
      obtain ⟨i, hi, hle⟩ := ih (j := k + 1) (by omega) (by omega)
      exact ⟨i, by omega, hle⟩
    · exact ⟨j, le_rfl, hge⟩

/-- What was caused before edge `m` is delivered at some time, in order. -/
theorem exists_responses_prefix_delivered (hfair : r.WeaklyFair) (hdrain : r.HostDrainsFrom n) (hm : n ≤ m) :
    ∃ k, m ≤ k ∧ (r.ports m).block.responses <+: (r.ports k).block.delivered := by
  obtain ⟨k, hk, hle⟩ := exists_length_le_delivered hfair hdrain hm _ le_rfl (Nat.le_add_left _ _)
  have hcaused := (responses_prefix (fun j hj => (hdrain j (hm.trans hj)).1) hk).1
  exact ⟨k, hk, List.prefix_of_prefix_length_le hcaused (List.prefix_append _ _) hle⟩

end PortRun

/-- Settles O56: at the ports, a response that waits is delivered, so the queue runs empty unless a command is accepted; the
run of the machine is an induction over the coming moves. -/
theorem runCarriesOutEveryMove : Obligations.RunCarriesOutEveryMove := by
  unfold Obligations.RunCarriesOutEveryMove
  constructor
  · intro r n hfair hdrain
    exact ⟨fun m hm => PortRun.exists_acceptsAt_word hfair hdrain hm,
      fun m hm => PortRun.exists_responses_prefix_delivered hfair hdrain hm⟩
  · exact fun s => run_length_input s.input s

end Sys2Proof.Machine
end
